-- ==== Sys2Proof/Word.lean ====
section
/-! DEFINITION. The two word types of the VRF: the 32-bit register word (R7 REG_W, R15) and the 16-bit
sample (R7 SAMPLE_W, COEF_W, STATE_W; R41). -/

namespace Sys2Proof

/-- A 32-bit register word (R7 `REG_W`, R15): the width of every host register access. -/
abbrev Word := BitVec 32

/-- A 16-bit pattern read as a signed sample, coefficient or delay value (R7, R41). -/
abbrev Sample := BitVec 16

end Sys2Proof
end

