-- ==== Sys2Proof/Syntax.lean ====
section
/-! DEFINITION. The commands of the VRF: one constructor per row of spec/opcode_table.json (R60). A command has
no operand field: every operand is a register (R59). -/

namespace Sys2Proof

/-- The four commands of R60. -/
inductive Instr where
  /-- `NOP`, word 0x00000000 (R99). -/
  | nop
  /-- `SETUP`, word 0x00000001 (R100). -/
  | setup
  /-- `STEP`, word 0x00000002 (R101). -/
  | step
  /-- `APPLY`, word 0x00000003 (R102, R103). -/
  | apply
  deriving DecidableEq, Repr

end Sys2Proof
end

