-- ==== Sys2Proof/WellFormed.lean ====
section
/-! DEFINITION. What makes a command word, a register access and a command well formed (R55, R59, R61). A
command has no operands (R59), so that every term of `Instr` is well formed: the checks with content are those on
words and on accesses. -/

namespace Sys2Proof

/-- R59, R61: the reserved field `RSV` = bits 31:4 of a legal command word is 0. -/
def rsvIsZero (d : Word) : Bool := d.extractLsb' 4 28 == 0#28

/-- R60, R61: `OP` = bits 3:0 of a legal command word is 0, 1, 2 or 3. -/
def opIsDefined (d : Word) : Bool := (d.extractLsb' 0 4).toNat ≤ 3

/-- R61: a command word that is not illegal. -/
def commandWordWf (d : Word) : Bool := rsvIsZero d && opIsDefined d

/-- R55: a register access is 32 bits wide, `size` in bytes. -/
def accessIsWord (size : Nat) : Bool := size == 4

/-- R55: the offset of a register access is a multiple of 4. -/
def accessIsAligned (off : Nat) : Bool := off % 4 == 0

/-- R55: the register accesses that are not refused. -/
def registerAccessWf (off size : Nat) : Bool := accessIsWord size && accessIsAligned off

/-- R59: no command has an operand that could be ill formed. -/
def Instr.wf : Instr → Bool
  | .nop => true
  | .setup => true
  | .step => true
  | .apply => true

end Sys2Proof
end

