-- ==== Sys2Proof/Decode.lean ====
section
/-! DEFINITION. Decoding of a command word (R59 to R61, R65, R98), total on all 2^32 words and rejecting by name,
and the encoder of R60. -/

namespace Sys2Proof

/-- Why a word is no command (R61). Both kinds raise `ILLEGAL_CMD` (R98). -/
inductive IllegalWord where
  /-- `d[31:4]` is not 0. -/
  | reservedBits
  /-- `d[31:4]` is 0 and `OP` is in 0x4 .. 0xF. -/
  | reservedOp
  deriving DecidableEq, Repr

/-- The field `RSV`, bits 31:4 (R59). -/
def commandRsv (d : Word) : BitVec 28 := d.extractLsb' 4 28

/-- The field `OP`, bits 3:0 (R59). -/
def commandOp (d : Word) : BitVec 4 := d.extractLsb' 0 4

/-- R60: the command an `OP` selects, none for 0x4 .. 0xF. -/
def commandOfOp (op : Nat) : Option Instr :=
  match op with
  | 0 => some .nop
  | 1 => some .setup
  | 2 => some .step
  | 3 => some .apply
  | _ => none

/-- R60, R61, R98: what a written `CMD` word selects, the reserved field looked at first. -/
def decodeCommand (d : Word) : Except IllegalWord Instr :=
  if commandRsv d = 0#28 then
    match commandOfOp (commandOp d).toNat with
    | some i => .ok i
    | none => .error .reservedOp
  else .error .reservedBits

/-- R60: the `OP` of a command. -/
def encodeOp : Instr → BitVec 4
  | .nop => 0x0#4
  | .setup => 0x1#4
  | .step => 0x2#4
  | .apply => 0x3#4

/-- R59, R60: the one word of a command, `RSV` = 0 above `OP`. -/
def encode (i : Instr) : Word := 0#28 ++ encodeOp i

/-- The command the decoder reads from a table row's bits. A command is exactly one 32-bit word (R65): bits the
row does not give, up to bit 31, are 0, and no bits lie above. -/
def decodeTableWord (nbits w : Nat) : Option Instr :=
  if nbits ≤ 32 then
    match decodeCommand (BitVec.ofNat 32 (w % 2 ^ nbits)) with
    | .ok i => some i
    | .error _ => none
  else none

end Sys2Proof
end

