-- ==== Sys2Proof/Config.lean ====
section
/-! DEFINITION. The OPEN parameters of R7 (00_scope.md) and the one free choice of the model, each an opaque
constant: no value of any of them can be evaluated or proved. -/

namespace Sys2Proof.Config

/-- R7 `HOST_ENDIAN`: the byte order in which the host sees the two bytes of a sample (R43, D9). -/
inductive Endian where
  | little
  | big
  deriving DecidableEq, Repr, Inhabited

/-- `MEM_WORDS - 1`, so that R7's bound 1 <= `MEM_WORDS` <= 2^32 holds by construction. -/
opaque memWordsLessOne : BitVec 32

/-- R7 `MEM_WORDS` (OPEN): the number of samples of sample memory (R41). -/
def memWords : Nat := memWordsLessOne.toNat + 1

/-- `N_INST - 1`, so that R7's bound `N_INST` >= 1 holds by construction. -/
opaque moreInstances : Nat

/-- R7 `N_INST` (OPEN): the number of VRF instances (R126). -/
def instances : Nat := moreInstances + 1

/-- R7 `FILT_BASE` (OPEN): the byte address of instance 0's window on the host bus (R15, R57). -/
opaque filtBase : Nat

/-- R7 `HOST_ENDIAN` (OPEN), not observable by the VRF (R43). -/
opaque hostEndian : Endian

/-- A free value: which of several busy instances takes the next instance step when nothing else says so.
R105 and R120 give no order between instances (notes/assumptions/3.md). -/
opaque freeChoice : Nat → Nat

end Sys2Proof.Config
end

