-- ==== Sys2Proof/Machine/State.lean ====
section
/-! DEFINITION. The state of the machine: the instances, sample memory, the platform's parameters, and what the
outside world does next. INVENTORY.md lists every field with its rule and its reset value. -/

namespace Sys2Proof.Machine

/-- The fault codes of R116. Codes 7 to 15 are reserved and never reported, so they have no constructor. -/
inductive FCode where
  /-- 0 `NONE` -/
  | noFault
  /-- 1 `ILLEGAL_CMD` -/
  | illegalCmd
  /-- 2 `NOT_PREPARED` -/
  | notPrepared
  /-- 3 `NULL_FRAME` -/
  | nullFrame
  /-- 4 `BAD_STRIDE` -/
  | badStride
  /-- 5 `OUT_OF_RANGE` -/
  | outOfRange
  /-- 6 `BUSY_WRITE` -/
  | busyWrite
  deriving DecidableEq, Repr

/-- One VRF instance: the interface registers of R15, the `STATUS` fields of R17 and the internal state of R31 to
R33. 16-bit fields are signed samples; `kh`, `nb1`, `nb2` hold the 32-bit two's complement pattern that a read
returns (R27 to R29). -/
structure Vrf where
  /-- `K` (R18) -/
  k : Sample
  /-- `B1` (R19) -/
  b1 : Sample
  /-- `B2` (R20) -/
  b2 : Sample
  /-- `Z1`, the committed delay line (R21) -/
  z1 : Sample
  /-- `Z2`, the committed delay line (R22) -/
  z2 : Sample
  /-- `XY`, the single-sample latch (R23) -/
  xy : Sample
  /-- `FBASE` (R24) -/
  fbase : Word
  /-- `FCOUNT` (R25) -/
  fcount : Word
  /-- `FSTRIDE` (R26) -/
  fstride : Word
  /-- `KH`, the prepared gain (R27) -/
  kh : Word
  /-- `NB1`, the prepared first feedback (R28) -/
  nb1 : Word
  /-- `NB2`, the prepared second feedback (R29) -/
  nb2 : Word
  /-- `IDX`, the sequencer's sample index (R30, R35) -/
  idx : Word
  /-- `STATUS.BUSY` (R17) -/
  busy : Bool
  /-- `STATUS.FAULT` (R17) -/
  fault : Bool
  /-- `STATUS.PREP` (R17) -/
  prep : Bool
  /-- `STATUS.FCODE` (R17, R116) -/
  fcode : FCode
  /-- `ACC`, the accumulator of one sample step (R31); DESIGN CHOICE between steps, notes/assumptions/8.md -/
  acc : Word
  /-- `W1`, the working delay line (R32) -/
  w1 : Sample
  /-- `W2`, the working delay line (R32) -/
  w2 : Sample
  /-- `LBASE`, the latched frame (R33) -/
  lbase : Word
  /-- `LCOUNT`, the latched frame (R33) -/
  lcount : Word
  /-- `LSTRIDE`, the latched frame (R33) -/
  lstride : Word
  deriving DecidableEq, Repr

/-- R39: every element of an instance after reset. `ACC` is unspecified there: DESIGN CHOICE 0,
notes/assumptions/8.md. -/
def Vrf.reset : Vrf where
  k := 0#16
  b1 := 0#16
  b2 := 0#16
  z1 := 0#16
  z2 := 0#16
  xy := 0#16
  fbase := 0#32
  fcount := 0#32
  fstride := 0#32
  kh := 0#32
  nb1 := 0#32
  nb2 := 0#32
  idx := 0#32
  busy := false
  fault := false
  prep := false
  fcode := .noFault
  acc := 0#32
  w1 := 0#16
  w2 := 0#16
  lbase := 0#32
  lcount := 0#32
  lstride := 0#32

/-- The OPEN parameters of R7 that the rules read or name, as plain data no step changes (notes/assumptions/1.md).
`N_INST` is the number of instances `State.vrfs` holds. -/
structure Platform where
  /-- `MEM_WORDS` (R7, R41) -/
  memWords : Nat
  /-- `FILT_BASE` (R7, R15) -/
  filtBase : Nat
  /-- `HOST_ENDIAN` (R7, R43) -/
  hostEndian : Config.Endian
  deriving DecidableEq, Repr

/-- What happens next, one entry a step: the accesses of the host, the resets of the platform and the instance
steps, interleaved in any order (R50, R52, R120; notes/assumptions/2.md). `size` is the width of an access in bytes
and `off` the byte offset in the instance's window; `addr` of a bus access is a byte address on the host bus. -/
inductive HostOp where
  /-- A read of `size` bytes at offset `off` of instance `j`'s window (R66 `R`, R96). -/
  | regRead (j off size : Nat)
  /-- A write of `d` at offset `off` of instance `j`'s window (R66 `W`, R97). -/
  | regWrite (j off size : Nat) (d : Word)
  /-- A read at a byte address of the host bus (R15, R57). -/
  | busRead (addr size : Nat)
  /-- A write at a byte address of the host bus (R15, R57). -/
  | busWrite (addr size : Nat) (d : Word)
  /-- The host reads a sample by its own path (R44). -/
  | sampleRead (a : Nat)
  /-- The host writes a sample by its own path (R44). -/
  | sampleWrite (a : Nat) (v : Sample)
  /-- The host polls `STATUS` of instance `j` until `BUSY` reads 0 (R68). -/
  | wait (j : Nat)
  /-- The instance step of instance `j` that is enabled, if one is (R105). -/
  | instanceStep (j : Nat)
  /-- The platform resets instance `j` (R132). -/
  | resetOne (j : Nat)
  /-- A platform reset of all instances (R132). -/
  | resetAll
  deriving DecidableEq, Repr

/-- What a read gave the host (R96, R41). -/
inductive Seen where
  /-- The word a register read returned. -/
  | reg (j off : Nat) (v : Word)
  /-- The sample a read of sample memory returned. -/
  | sample (a : Nat) (v : Sample)
  deriving DecidableEq, Repr

/-- Sample memory (R41): the samples that differ from `unlistedSample`, as address and pattern, addresses
strictly rising (notes/assumptions/6.md). -/
abbrev Memory := List (Nat × Sample)

/-- What a sample that is not listed reads as. The spec gives no contents (R39): DESIGN CHOICE 0,
notes/assumptions/7.md. -/
def unlistedSample : Sample := 0#16

/-- The whole machine. -/
structure State where
  /-- The `N_INST` instances (R126), instance `j` at position `j`. -/
  vrfs : List Vrf
  /-- Sample memory, shared by all (R37). -/
  mem : Memory
  /-- The platform's parameters (R7). -/
  plat : Platform
  /-- The model's own field: the instance whose window the current host access addresses. -/
  sel : Nat
  /-- The model's own field: what happens next, first entry first. -/
  pending : List HostOp
  /-- The model's own field: what the host's reads returned, newest first. -/
  seen : List Seen
  /-- The model's own field: how many free choices have been taken. -/
  choices : Nat
  deriving DecidableEq, Repr

/-- The machine right after reset (R39, R133, R134): every instance at `Vrf.reset`, nothing listed in sample
memory, the parameters as the platform fixes them, and no access made yet. -/
def State.reset : State where
  vrfs := List.replicate Config.instances Vrf.reset
  mem := []
  plat := { memWords := Config.memWords, filtBase := Config.filtBase, hostEndian := Config.hostEndian }
  sel := 0
  pending := []
  seen := []
  choices := 0

/-- Why the machine stops with a fault of the MODEL. The fault codes of R116 are not among them: raising one is a
next state (R118). -/
inductive Fault where
  /-- An access to a sample address that does not exist, `MEM_WORDS` or above (R41, R42). Raised by the host's
  sample accesses; by a sample step only in states no run reaches (R42). Safe. -/
  | noSuchSample
  deriving DecidableEq, Repr

/-- Why the model gives a run no meaning (R124). All safe: a refused run satisfies no claim and refutes none. -/
inductive Refusal where
  /-- An instruction whose meaning is not written; raised only by an arm of exec. Safe. -/
  | notModelled (mnemonic : String)
  /-- R48 `HostFrameAccessWhileBusy`; raised by the host's sample accesses. Safe. -/
  | hostFrameAccessWhileBusy
  /-- R49 `OverlappingFrames`; raised by the start of an `APPLY`. Safe. -/
  | overlappingFrames
  /-- R55 `SubwordRegisterAccess`; raised by the host's register accesses. Safe. -/
  | subwordRegisterAccess
  /-- A register access or a reset that names no instance's window, so that it is no VRF's (R15, R128); raised by the
  host's register accesses, by wait and by the reset of one instance. Safe; notes/assumptions/13.md and, for a bus access
  that starts below `FILT_BASE`, 23.md. -/
  | outsideWindows
  deriving DecidableEq, Repr

end Sys2Proof.Machine
end

