-- ==== Sys2Proof/Machine/Operands.lean ====
section
/-! DEFINITION. The notation of R8 to R10, the register map of R15, operand assembly (R63, R64) and frame addresses
(R42, R45). -/

namespace Sys2Proof.Machine

/-! ### Numbers (R8 to R10) -/

/-- R10: `asr(v, n) = floor(v / 2^n)`; Lean's division of an integer by a positive one is the floor. -/
def asr (v : Int) (n : Nat) : Int := v / (2 : Int) ^ n

/-- R9 `s16`: the low 16 bits of an integer, as the pattern of a signed sample. -/
def s16 (v : Int) : Sample := BitVec.ofInt 16 v

/-- R9 `u32`: the 32-bit pattern of an integer. -/
def u32 (v : Int) : Word := BitVec.ofInt 32 v

/-- R7 `FILTER_SHIFT` = 14, normative but unaudited (D32, I1; notes/assumptions/17.md). -/
def filterShift : Nat := 14

/-- R7 `PRESHIFT` = 1, normative but unaudited (D32, I1; notes/assumptions/17.md). -/
def preshift : Nat := 1

/-! ### Operand assembly (R63, R64) -/

/-- R63: a 16-bit field is assembled from bits 15:0 of the written word. -/
def assemble16 (d : Word) : Sample := d.extractLsb' 0 16

/-- R63: a 16-bit field is read zero-extended. -/
def readBack16 (v : Sample) : Word := v.zeroExtend 32

/-! ### The register map (R15) -/

/-- The named registers of R15. -/
inductive Reg where
  | cmd
  | status
  | k
  | b1
  | b2
  | z1
  | z2
  | xy
  | fbase
  | fcount
  | fstride
  | kh
  | nb1
  | nb2
  | idx
  deriving DecidableEq, Repr

/-- R15: the byte offset of a register in its window. -/
def regOffset : Reg → Nat
  | .cmd => 0x00
  | .status => 0x04
  | .k => 0x08
  | .b1 => 0x0C
  | .b2 => 0x10
  | .z1 => 0x14
  | .z2 => 0x18
  | .xy => 0x1C
  | .fbase => 0x20
  | .fcount => 0x24
  | .fstride => 0x28
  | .kh => 0x2C
  | .nb1 => 0x30
  | .nb2 => 0x34
  | .idx => 0x38

/-- R15, R30: the register at a byte offset; none at the reserved offsets 0x3C to 0xFC. -/
def regAt (off : Nat) : Option Reg :=
  match off with
  | 0x00 => some .cmd
  | 0x04 => some .status
  | 0x08 => some .k
  | 0x0C => some .b1
  | 0x10 => some .b2
  | 0x14 => some .z1
  | 0x18 => some .z2
  | 0x1C => some .xy
  | 0x20 => some .fbase
  | 0x24 => some .fcount
  | 0x28 => some .fstride
  | 0x2C => some .kh
  | 0x30 => some .nb1
  | 0x34 => some .nb2
  | 0x38 => some .idx
  | _ => none

/-- R15: the size of an instance's window in bytes. -/
def windowBytes : Nat := 0x100

/-- R15, R57: the byte address of an offset of instance `j`'s window on the host bus. -/
def busAddress (filtBase j off : Nat) : Nat := filtBase + windowBytes * j + off

/-- R15, R57: the instance number and offset a byte address of the host bus falls in, were there that many
instances; none below `FILT_BASE`. That the address of an access's first byte alone decides it, also where its last
bytes reach into window 0, is the model's choice (notes/assumptions/23.md). -/
def busWindow (filtBase addr : Nat) : Option (Nat × Nat) :=
  if addr < filtBase then none
  else some ((addr - filtBase) / windowBytes, (addr - filtBase) % windowBytes)

/-! ### Frames (R42, R45) -/

/-- The frame of an `APPLY`: base address, count and stride, in samples. -/
structure Frame where
  base : Nat
  count : Nat
  stride : Nat
  deriving DecidableEq, Repr

/-- R42, R45: the address of frame sample `i`, exact, with no wrap. -/
def frameAddr (f : Frame) (i : Nat) : Nat := f.base + i * f.stride

/-- R45: whether `a` is one of the frame's addresses `a_0 .. a_(count-1)`. -/
def frameContains (f : Frame) (a : Nat) : Bool :=
  decide (f.count ≠ 0) &&
    (if f.stride = 0 then a == f.base
     else decide (f.base ≤ a) && (a - f.base) % f.stride == 0 && decide ((a - f.base) / f.stride < f.count))

/-- R49: whether two frames share an address. -/
def framesOverlap (f g : Frame) : Bool :=
  (List.range f.count).any fun i => frameContains g (frameAddr f i)

/-- R24 to R26: the frame in the host's registers. -/
def hostFrame (u : Vrf) : Frame := ⟨u.fbase.toNat, u.fcount.toNat, u.fstride.toNat⟩

/-- R33: the latched frame of a running `APPLY`. -/
def latchedFrame (u : Vrf) : Frame := ⟨u.lbase.toNat, u.lcount.toNat, u.lstride.toNat⟩

end Sys2Proof.Machine
end

