-- ==== Sys2Proof/Machine/Datapath.lean ====
section
/-! DEFINITION. The arithmetic of 40_datapath.md: the setup unit, the multiplier-accumulator, the shifter, the
narrowing, the delay line, and the functions Setup, Step, Block and Apply (R73 to R94). -/

namespace Sys2Proof.Machine

/-- The prepared coefficients `KH`, `NB1`, `NB2` (R34) as the registers hold them. -/
structure Prepared where
  kh : Word
  nb1 : Word
  nb2 : Word
  deriving DecidableEq, Repr

/-- A delay line `(z1, z2)` (R83). -/
structure Delay where
  z1 : Sample
  z2 : Sample
  deriving DecidableEq, Repr

/-- R74: the prepared gain, `asr(K, 1)`. -/
def preparedGain (k : Int) : Int := asr k preshift

/-- R75: the prepared first feedback, negated and not shifted. -/
def preparedFirst (b1 : Int) : Int := -b1

/-- R76: the prepared second feedback, negated first and then shifted. -/
def preparedSecond (b2 : Int) : Int := asr (-b2) preshift

/-- R73: the setup unit. -/
def setupCoefficients (k b1 b2 : Sample) : Prepared where
  kh := u32 (preparedGain k.toInt)
  nb1 := u32 (preparedFirst b1.toInt)
  nb2 := u32 (preparedSecond b2.toInt)

/-- R77, R78: the exact sum of the three signed products. -/
def exactSum (p : Prepared) (z : Delay) (x : Sample) : Int :=
  p.kh.toInt * x.toInt + p.nb1.toInt * z.z1.toInt + p.nb2.toInt * z.z2.toInt

/-- R78: the sum as the 32-bit two's complement register `ACC` forms it. -/
def accumulate (p : Prepared) (z : Delay) (x : Sample) : Word := u32 (exactSum p z x)

/-- R80: the final shifter. -/
def shiftAcc (acc : Word) : Int := asr acc.toInt filterShift

/-- R82: narrowing to a sample, wrapping modulo 65536. -/
def narrow (yfull : Int) : Sample := s16 yfull

/-- R78, R80, R82: the output sample of one step. -/
def stepOutput (p : Prepared) (z : Delay) (x : Sample) : Sample := narrow (shiftAcc (accumulate p z x))

/-- R83: the delay line after a sample, `z2` taking the old `z1`. -/
def shiftDelay (z : Delay) (y : Sample) : Delay := ⟨y, z.z1⟩

/-- R84: one sample step, the output and the new delay line. -/
def filterStep (p : Prepared) (z : Delay) (x : Sample) : Sample × Delay :=
  (stepOutput p z x, shiftDelay z (stepOutput p z x))

/-- R85: the block function folds the step over the samples in index order. -/
def filterBlock (p : Prepared) (z : Delay) : List Sample → List Sample × Delay
  | [] => ([], z)
  | x :: xs =>
    let (y, z') := filterStep p z x
    let (ys, z'') := filterBlock p z' xs
    (y :: ys, z'')

/-- R86: the source's whole operation, the block after the setup. -/
def filterApply (k b1 b2 : Sample) (z : Delay) (xs : List Sample) : List Sample × Delay :=
  filterBlock (setupCoefficients k b1 b2) z xs

/-- R34: the prepared coefficients an instance holds. -/
def preparedOf (u : Vrf) : Prepared := ⟨u.kh, u.nb1, u.nb2⟩

/-- R21, R22: the committed delay line. -/
def committedDelay (u : Vrf) : Delay := ⟨u.z1, u.z2⟩

/-- R32: the working delay line. -/
def workingDelay (u : Vrf) : Delay := ⟨u.w1, u.w2⟩

end Sys2Proof.Machine
end

