-- ==== Sys2Proof/Machine/Flags.lean ====
section
/-! DEFINITION. The only flags of the VRF: the `STATUS` fields of R17 and the fault codes of R116. The datapath
has no condition flags (R36). -/

namespace Sys2Proof.Machine

/-- R116: the number of a fault code. -/
def fcodeBits : FCode → BitVec 4
  | .noFault => 0#4
  | .illegalCmd => 1#4
  | .notPrepared => 2#4
  | .nullFrame => 3#4
  | .badStride => 4#4
  | .outOfRange => 5#4
  | .busyWrite => 6#4

/-- A one-bit field of `STATUS`. -/
def flagBit (b : Bool) : BitVec 1 := BitVec.ofBool b

/-- R17: a read of `STATUS` returns these fields, `BUSY` lowest and the reserved bits 0. -/
def statusWord (u : Vrf) : Word :=
  0#20 ++ fcodeBits u.fcode ++ 0#5 ++ flagBit u.prep ++ flagBit u.fault ++ flagBit u.busy

/-- R118: raising a fault with code `c` records the first code and makes the fault sticky; nothing else changes. -/
def raiseFault (c : FCode) (u : Vrf) : Vrf :=
  if u.fault then u else { u with fault := true, fcode := c }

end Sys2Proof.Machine
end

