-- ==== Sys2Proof/Machine/Ops.lean ====
section
/-! DEFINITION. The named operations over sample memory, instances and registers, taking a fault (R118), and the
gate every host write passes (R97, R119). -/

namespace Sys2Proof.Machine

/-- The outcome of one step of this machine. -/
abbrev Result := Host.Outcome State Fault Refusal

/-! ### Sample memory (R41) -/

/-- The sample a memory holds at an address. -/
def memGet (m : Memory) (a : Nat) : Sample :=
  match m with
  | [] => unlistedSample
  | c :: rest => if c.1 = a then c.2 else memGet rest a

/-- A new cell before `rest`, left out where it would hold what an unlisted sample reads as. -/
def memCons (a : Nat) (v : Sample) (rest : Memory) : Memory :=
  if v = unlistedSample then rest else (a, v) :: rest

/-- A memory with the sample at one address replaced, in canonical form. -/
def memSet (m : Memory) (a : Nat) (v : Sample) : Memory :=
  match m with
  | [] => memCons a v []
  | c :: rest =>
    if c.1 < a then c :: memSet rest a v
    else if c.1 = a then memCons a v rest
    else memCons a v (c :: rest)

/-- The canonical form: addresses strictly rising and no listed sample equal to an unlisted one. -/
abbrev Memory.wf (m : Memory) : Prop :=
  m.Pairwise (fun c d => c.1 < d.1) ∧ ∀ c ∈ m, c.2 ≠ unlistedSample

/-- R41 `MemRead(a, 1)`; none where the address does not exist. -/
def sampleAt (s : State) (a : Nat) : Option Sample :=
  if a < s.plat.memWords then some (memGet s.mem a) else none

/-- R43, D9: the two bytes of a sample in the order in which the host sees them. No rule of the VRF reads this. -/
def hostBytes (e : Config.Endian) (v : Sample) : BitVec 8 × BitVec 8 :=
  match e with
  | .little => (v.extractLsb' 0 8, v.extractLsb' 8 8)
  | .big => (v.extractLsb' 8 8, v.extractLsb' 0 8)

/-- R43: the two bytes of an existing sample as the platform shows them to the host. -/
def hostBytesAt (s : State) (a : Nat) : Option (BitVec 8 × BitVec 8) :=
  (sampleAt s a).map (hostBytes s.plat.hostEndian)

/-! ### Updates of the machine -/

/-- The state with instance `j` replaced. -/
def State.setVrf (s : State) (j : Nat) (u : Vrf) : State := { s with vrfs := s.vrfs.set j u }

/-- The state with another sample memory. -/
def State.setMem (s : State) (m : Memory) : State := { s with mem := m }

/-- The state with another list of what happens next. -/
def State.setPending (s : State) (ops : List HostOp) : State := { s with pending := ops }

/-- The state with instance `j` addressed by the host. -/
def State.select (s : State) (j : Nat) : State := { s with sel := j }

/-- The state after a read gave the host `x`. -/
def State.observe (s : State) (x : Seen) : State := { s with seen := x :: s.seen }

/-- The state after one free choice. -/
def State.countChoice (s : State) : State := { s with choices := s.choices + 1 }

/-! ### Updates of an instance -/

/-- R100, R103: the prepared coefficients set from `K`, `B1`, `B2`, and `PREP` <- 1. -/
def prepare (u : Vrf) : Vrf :=
  let p := setupCoefficients u.k u.b1 u.b2
  { u with kh := p.kh, nb1 := p.nb1, nb2 := p.nb2, prep := true }

/-- R101: one recurrence step over `XY` and the committed delay line; every read is of the old values. -/
def stepLatch (u : Vrf) : Vrf :=
  let acc := accumulate (preparedOf u) (committedDelay u) u.xy
  let y := narrow (shiftAcc acc)
  { u with acc := acc, xy := y, z1 := y, z2 := u.z1 }

/-- R103: the start of an `APPLY`. -/
def startApply (u : Vrf) : Vrf :=
  { prepare u with
    lbase := u.fbase, lcount := u.fcount, lstride := u.fstride,
    w1 := u.z1, w2 := u.z2, idx := 0#32, busy := true }

/-- R104: the part of a sample step inside the instance, for the input sample `x`. -/
def stepWorking (u : Vrf) (x : Sample) : Vrf :=
  let acc := accumulate (preparedOf u) (workingDelay u) x
  let y := narrow (shiftAcc acc)
  { u with acc := acc, w1 := y, w2 := u.w1, idx := u.idx + 1#32 }

/-- R106: the commit of an `APPLY`. -/
def commitApply (u : Vrf) : Vrf := { u with z1 := u.w1, z2 := u.w2, busy := false }

/-! ### Registers (R96, R97) -/

/-- R96: the word a read of a named register returns. -/
def readReg (u : Vrf) : Reg → Word
  | .cmd => 0#32
  | .status => statusWord u
  | .k => readBack16 u.k
  | .b1 => readBack16 u.b1
  | .b2 => readBack16 u.b2
  | .z1 => readBack16 u.z1
  | .z2 => readBack16 u.z2
  | .xy => readBack16 u.xy
  | .fbase => u.fbase
  | .fcount => u.fcount
  | .fstride => u.fstride
  | .kh => u.kh
  | .nb1 => u.nb1
  | .nb2 => u.nb2
  | .idx => u.idx

/-- R96: the word a read of an offset returns, 0 at the reserved offsets (R30). -/
def readOffset (u : Vrf) (off : Nat) : Word :=
  match regAt off with
  | some r => readReg u r
  | none => 0#32

/-- R97: the instance after a write of `d` to a named register other than `CMD`; the read-only ones ignore it. -/
def writeReg (u : Vrf) (d : Word) : Reg → Vrf
  | .cmd => u
  | .status => u
  | .k => { u with k := assemble16 d }
  | .b1 => { u with b1 := assemble16 d }
  | .b2 => { u with b2 := assemble16 d }
  | .z1 => { u with z1 := assemble16 d }
  | .z2 => { u with z2 := assemble16 d }
  | .xy => { u with xy := assemble16 d }
  | .fbase => { u with fbase := d }
  | .fcount => { u with fcount := d }
  | .fstride => { u with fstride := d }
  | .kh => u
  | .nb1 => u
  | .nb2 => u
  | .idx => u

/-- R97: the instance after a write at an offset other than that of `CMD`; a reserved offset ignores it (R30). -/
def writeOffset (u : Vrf) (off : Nat) (d : Word) : Vrf :=
  match regAt off with
  | some r => writeReg u d r
  | none => u

/-! ### Faults and the gate of a host write -/

/-- R118: the selected instance takes a fault with code `c`; the access that raised it has no other effect. -/
def takeFault (c : FCode) (u : Vrf) (s : State) : Result := .next (s.setVrf s.sel (raiseFault c u))

/-- R97, R119: what a host write to the selected instance does first. A faulted instance ignores it, a busy one
raises `BUSY_WRITE` and drops it, and otherwise `act` runs on the instance. -/
def gateWrite (act : Vrf → Result) (s : State) : Result :=
  match s.vrfs[s.sel]? with
  | none => .refused .outsideWindows
  | some u =>
    if u.fault then .next s
    else if u.busy then takeFault .busyWrite u s
    else act u

/-! ### Running frames (R48, R49) -/

/-- R48: whether a sample address belongs to the frame of a running `APPLY`. -/
def inRunningFrame (s : State) (a : Nat) : Bool := s.vrfs.any fun v => v.busy && frameContains (latchedFrame v) a

/-- R49: whether `f`, as a frame of instance `j`, shares an address with the frame of another running `APPLY`. -/
def overlapsRunning (s : State) (j : Nat) (f : Frame) : Bool :=
  decide (f.count ≠ 0) &&
    (List.range s.vrfs.length).any fun i =>
      decide (i ≠ j) &&
        match s.vrfs[i]? with
        | some v => v.busy && framesOverlap f (latchedFrame v)
        | none => false

end Sys2Proof.Machine
end

