-- ==== Sys2Proof/Machine/Commands.lean ====
section
/-! DEFINITION. The meanings of the four commands (R99 to R103), each as a `CMD` write of its word to the selected
instance `State.sel`, the gate of R97 included. -/

namespace Sys2Proof.Machine

/-- R99 `NOP`: nothing changes. -/
def execNop (s : State) : Result := gateWrite (fun _ => .next s) s

/-- R100 `SETUP`: the prepared coefficients and `PREP`. -/
def execSetup (s : State) : Result := gateWrite (fun u => .next (s.setVrf s.sel (prepare u))) s

/-- R101 `STEP`: `NOT_PREPARED` when `PREP` = 0, else one recurrence step over `XY`. -/
def execStep (s : State) : Result :=
  gateWrite (fun u => if u.prep then .next (s.setVrf s.sel (stepLatch u)) else takeFault .notPrepared u s) s

/-- R102: the first check of `APPLY` that fails, with exact arithmetic; none if the frame is accepted. -/
def applyCheck (memWords : Nat) (f : Frame) : Option FCode :=
  if 1 ≤ f.count ∧ f.base = 0 then some .nullFrame
  else if 2 ≤ f.count ∧ f.stride = 0 then some .badStride
  else if 1 ≤ f.count ∧ memWords ≤ f.base + (f.count - 1) * f.stride then some .outOfRange
  else none

/-- R102, R103 `APPLY`: the checks, then the start. A start whose frame meets that of another running `APPLY` is
refused (R49). The sample steps and the commit are instance steps (R104, R106). -/
def execApply (s : State) : Result :=
  gateWrite
    (fun u =>
      match applyCheck s.plat.memWords (hostFrame u) with
      | some c => takeFault c u s
      | none =>
        if overlapsRunning s s.sel (hostFrame u) then .refused .overlappingFrames
        else .next (s.setVrf s.sel (startApply u)))
    s

end Sys2Proof.Machine
end

