-- ==== Sys2Proof/Machine/Dispatch.lean ====
section
/-! DEFINITION. One arm per command (R98). -/

namespace Sys2Proof.Machine

/-- R98: the meaning of a decoded command, run on the instance `s.sel`. -/
def exec (i : Instr) (s : State) : Host.Outcome State Fault Refusal :=
  match i with
  | .nop => Sys2Proof.Machine.execNop s
  | .setup => Sys2Proof.Machine.execSetup s
  | .step => Sys2Proof.Machine.execStep s
  | .apply => Sys2Proof.Machine.execApply s

end Sys2Proof.Machine
end

