-- ==== Sys2Proof/Machine/Sequencer.lean ====
section
/-! DEFINITION. The steps an instance takes by itself while an `APPLY` runs (R104 to R106). -/

namespace Sys2Proof.Machine

/-- R104: one sample step of instance `j`, whose state is `u`, read and write of one sample at once. -/
def sampleStep (j : Nat) (u : Vrf) (s : State) : Result :=
  let a := frameAddr (latchedFrame u) u.idx.toNat
  match sampleAt s a with
  | none => .fault .noSuchSample
  | some x =>
    let u' := stepWorking u x
    .next ((s.setMem (memSet s.mem a u'.w1)).setVrf j u')

/-- R105: the instance step that is enabled while `BUSY` = 1, the sample step below `LCOUNT` and else the commit. -/
def busyStep (j : Nat) (u : Vrf) (s : State) : Result :=
  if u.idx.toNat < u.lcount.toNat then sampleStep j u s
  else .next (s.setVrf j (commitApply u))

/-- R105: the step of instance `j`; with `BUSY` = 0 none is enabled and nothing happens. -/
def instanceStep (j : Nat) (s : State) : Result :=
  match s.vrfs[j]? with
  | none => .next s
  | some u => if u.busy then busyStep j u s else .next s

/-- The instances with `BUSY` = 1, lowest number first. -/
def busyInstances (s : State) : List Nat :=
  (List.range s.vrfs.length).filter fun j =>
    match s.vrfs[j]? with
    | some u => u.busy
    | none => false

/-- R105, R120: an instance step of some busy instance, a free choice among several (notes/assumptions/3.md); with
none busy the machine stays as it is (R130, R134). -/
def anyInstanceStep (s : State) : Result :=
  match busyInstances s with
  | [] => .next s
  | [j] => instanceStep j s
  | j :: i :: rest =>
    instanceStep (((j :: i :: rest)[Config.freeChoice s.choices % (rest.length + 2)]?).getD j) s.countChoice

end Sys2Proof.Machine
end

