-- ==== Sys2Proof/Machine/Bus.lean ====
section
/-! DEFINITION. What the host and the platform do to the machine: register accesses (R55, R96, R97), sample accesses
(R44, R48), polling (R68) and reset (R132, R133). -/

namespace Sys2Proof.Machine

/-- R15, R55: why a register access is refused: its instance does not exist, its offset lies outside the 256-byte
window, or it is not an aligned 32-bit access. None if it is not refused. -/
def accessRefusal (s : State) (j off size : Nat) : Option Refusal :=
  if registerAccessWf off size = false then some .subwordRegisterAccess
  else if windowBytes ≤ off then some .outsideWindows
  else match s.vrfs[j]? with
    | some _ => none
    | none => some .outsideWindows

/-- R98: a write of `d` to `CMD` of the selected instance: the decoded command, or `ILLEGAL_CMD`. -/
def writeCommand (d : Word) (s : State) : Result :=
  match decodeCommand d with
  | .ok i => exec i s
  | .error _ => gateWrite (fun u => takeFault .illegalCmd u s) s

/-- R97: a write of `d` at an offset of the selected instance's window. -/
def writeSelected (off : Nat) (d : Word) (s : State) : Result :=
  if off = regOffset .cmd then writeCommand d s
  else gateWrite (fun u => .next (s.setVrf s.sel (writeOffset u off d))) s

/-- R97 `RegWrite`. -/
def hostRegWrite (j off size : Nat) (d : Word) (s : State) : Result :=
  match accessRefusal s j off size with
  | some r => .refused r
  | none => writeSelected off d (s.select j)

/-- R96 `RegRead`: the word goes to the host and no state element of the VRF changes, whatever its state. -/
def hostRegRead (j off size : Nat) (s : State) : Result :=
  match accessRefusal s j off size with
  | some r => .refused r
  | none =>
    match s.vrfs[j]? with
    | none => .refused .outsideWindows
    | some u => .next ((s.select j).observe (.reg j off (readOffset u off)))

/-- R15, R57: a read at a byte address of the host bus is a read of the window its first byte falls in; below `FILT_BASE` it
is refused before its width or alignment is looked at: DESIGN CHOICE, notes/assumptions/23.md. -/
def hostBusRead (addr size : Nat) (s : State) : Result :=
  match busWindow s.plat.filtBase addr with
  | none => .refused .outsideWindows
  | some w => hostRegRead w.1 w.2 size s

/-- R15, R57: a write at a byte address of the host bus is a write of the window its first byte falls in; below `FILT_BASE` it
is refused before its width or alignment is looked at: DESIGN CHOICE, notes/assumptions/23.md. -/
def hostBusWrite (addr size : Nat) (d : Word) (s : State) : Result :=
  match busWindow s.plat.filtBase addr with
  | none => .refused .outsideWindows
  | some w => hostRegWrite w.1 w.2 size d s

/-- R44, R48: the host reads a sample by its own path. -/
def hostSampleRead (a : Nat) (s : State) : Result :=
  match sampleAt s a with
  | none => .fault .noSuchSample
  | some x =>
    if inRunningFrame s a then .refused .hostFrameAccessWhileBusy
    else .next (s.observe (.sample a x))

/-- R44, R48: the host writes a sample by its own path. -/
def hostSampleWrite (a : Nat) (v : Sample) (s : State) : Result :=
  match sampleAt s a with
  | none => .fault .noSuchSample
  | some _ =>
    if inRunningFrame s a then .refused .hostFrameAccessWhileBusy
    else .next (s.setMem (memSet s.mem a v))

/-- R68 `WAIT`, with `rest` what follows it: while `BUSY` = 1 the host polls on and an instance step goes by; the poll
that reads `BUSY` = 0 ends it. `s` still has the wait at the head of `State.pending` (notes/assumptions/11.md). -/
def hostWait (j : Nat) (rest : List HostOp) (s : State) : Result :=
  match s.vrfs[j]? with
  | none => .refused .outsideWindows
  | some u =>
    if u.busy then anyInstanceStep s
    else hostRegRead j (regOffset .status) 4 (s.setPending rest)

/-- R132, R133: the platform resets instance `j`; sample memory is not touched. -/
def resetInstance (j : Nat) (s : State) : Result :=
  match s.vrfs[j]? with
  | none => .refused .outsideWindows
  | some _ => .next (s.setVrf j Vrf.reset)

/-- R132, R133: the platform resets every instance at once. -/
def resetPlatform (s : State) : Result := .next { s with vrfs := s.vrfs.map fun _ => Vrf.reset }

/-- One entry of `State.pending`, `rest` what follows it. -/
def perform (op : HostOp) (rest : List HostOp) (s : State) : Result :=
  match op with
  | .regRead j off size => hostRegRead j off size (s.setPending rest)
  | .regWrite j off size d => hostRegWrite j off size d (s.setPending rest)
  | .busRead addr size => hostBusRead addr size (s.setPending rest)
  | .busWrite addr size d => hostBusWrite addr size d (s.setPending rest)
  | .sampleRead a => hostSampleRead a (s.setPending rest)
  | .sampleWrite a v => hostSampleWrite a v (s.setPending rest)
  | .wait j => hostWait j rest s
  | .instanceStep j => instanceStep j (s.setPending rest)
  | .resetOne j => resetInstance j (s.setPending rest)
  | .resetAll => resetPlatform (s.setPending rest)

/-- One step of the machine: what the outside world does next or, when it is silent, an instance step. -/
def nextStep (s : State) : Result :=
  match s.pending with
  | [] => anyInstanceStep s
  | op :: rest => perform op rest s

end Sys2Proof.Machine
end

