-- ==== Sys2Proof/Machine/Step.lean ====
section
/-! DEFINITION. The step, and where a command is put for the step to take it next. -/

namespace Sys2Proof.Machine

/-- One step of the machine (R52): the first entry of `State.pending`, or an instance step. -/
def step (s : State) : Host.Outcome State Fault Refusal := nextStep s

/-- `s` with the host about to write the command word to `CMD` of the instance last addressed (R58: commands arrive
as host writes; notes/assumptions/5.md). -/
def State.withFetchWord (s : State) (nbits w : Nat) : State :=
  s.setPending
    (.regWrite s.sel (regOffset .cmd) 4 (BitVec.ofNat 32 (w % 2 ^ nbits)) :: s.pending)

end Sys2Proof.Machine
end

