-- ==== Sys2Proof/Machine/HostProgram.lean ====
section
/-! DEFINITION. The host program notation of R66 to R71: statements, their expansion, their bus transactions, and the
entries of `State.pending` that stand for them. Notation only: no rule of the VRF depends on it (D26). -/

namespace Sys2Proof.Machine

/-- The base statements of R67 and R68 and the pseudo-instructions of R69 to R71. A value is a number, negative
ones allowed, written as its 32-bit pattern. -/
inductive Stmt where
  | wr (r : Reg) (value : Int)
  | rd (r : Reg)
  | cmd (i : Instr)
  | wait
  | setcoef (k b1 b2 : Int)
  | ldz (z1 z2 : Int)
  | savez
  | filt1 (x : Int)
  | applyf (base count stride : Int)
  deriving DecidableEq, Repr

/-- A bus transaction of R66, `W <offset> <data>` or `R <offset>`. -/
inductive BusTriple where
  | w (off : Nat) (d : Word)
  | r (off : Nat)
  deriving DecidableEq, Repr

/-- R69 to R71: the base statements a statement expands to. -/
def expandStmt : Stmt → List Stmt
  | .wr r value => [.wr r value]
  | .rd r => [.rd r]
  | .cmd i => [.cmd i]
  | .wait => [.wait]
  | .setcoef k b1 b2 => [.wr .k k, .wr .b1 b1, .wr .b2 b2]
  | .ldz z1 z2 => [.wr .z1 z1, .wr .z2 z2]
  | .savez => [.rd .z1, .rd .z2]
  | .filt1 x => [.wr .xy x, .cmd .step, .rd .xy]
  | .applyf base count stride =>
    [.wr .fbase base, .wr .fcount count, .wr .fstride stride, .cmd .apply, .wait]

/-- R67, R68: the encoding of a base statement; that of `WAIT` is one poll, repeated. -/
def baseTriples : Stmt → List BusTriple
  | .wr r value => [.w (regOffset r) (u32 value)]
  | .rd r => [.r (regOffset r)]
  | .cmd i => [.w (regOffset .cmd) (encode i)]
  | .wait => [.r (regOffset .status)]
  | .setcoef _ _ _ => []
  | .ldz _ _ => []
  | .savez => []
  | .filt1 _ => []
  | .applyf _ _ _ => []

/-- R66: the encoding of a host program. -/
def programTriples (prog : List Stmt) : List BusTriple := (prog.flatMap expandStmt).flatMap baseTriples

/-- A bus transaction against instance `j`'s window, as the machine takes it. -/
def tripleOp (j : Nat) : BusTriple → HostOp
  | .w off d => .regWrite j off 4 d
  | .r off => .regRead j off 4

/-- What a base statement of a program for instance `j` makes the host do; `WAIT` polls until `BUSY` reads 0. -/
def baseOps (j : Nat) (st : Stmt) : List HostOp :=
  match st with
  | .wait => [.wait j]
  | other => (baseTriples other).map (tripleOp j)

/-- What a host program for instance `j` puts into `State.pending`. -/
def programOps (j : Nat) (prog : List Stmt) : List HostOp := (prog.flatMap expandStmt).flatMap (baseOps j)

end Sys2Proof.Machine
end

