-- ==== Sys2Proof/Safety.lean ====
section
/-! DEFINITION. The invariant of the machine, and what counts as a good end of a run (R148). -/

namespace Sys2Proof.Machine

/-- R74 to R76: the ranges of the prepared coefficients. -/
abbrev preparedInRange (p : Prepared) : Prop :=
  (-16384 ≤ p.kh.toInt ∧ p.kh.toInt ≤ 16383) ∧ (-32767 ≤ p.nb1.toInt ∧ p.nb1.toInt ≤ 32768) ∧
    (-16384 ≤ p.nb2.toInt ∧ p.nb2.toInt ≤ 16384)

/-- What holds of every instance in every state a run reaches, `memWords` being `MEM_WORDS`. -/
structure Vrf.Inv (memWords : Nat) (u : Vrf) : Prop where
  /-- R27 to R29: the prepared coefficients keep their ranges. -/
  inRange : preparedInRange (preparedOf u)
  /-- R39, R17: without `PREP` they still hold their reset values. -/
  unprepared : u.prep = false → preparedOf u = ⟨0#32, 0#32, 0#32⟩
  /-- R17, R118: `FCODE` is 0 exactly while `FAULT` = 0. -/
  faultCode : u.fault = false ↔ u.fcode = .noFault
  /-- R35: `IDX` never exceeds `LCOUNT`. -/
  index : u.idx.toNat ≤ u.lcount.toNat
  /-- R35: outside an `APPLY`, `IDX` keeps the value `LCOUNT`. -/
  indexIdle : u.busy = false → u.idx = u.lcount
  /-- R103: an `APPLY` has run the setup. -/
  prepared : u.busy = true → u.prep = true
  /-- R102: the frame of a running `APPLY` passed the checks. -/
  accepted : u.busy = true → applyCheck memWords (latchedFrame u) = none
  /-- R33, R115: the frame registers cannot change during an `APPLY`. -/
  frameKept : u.busy = true → latchedFrame u = hostFrame u
  /-- R103, R115: nor can the coefficients, so the prepared set is that of `K`, `B1`, `B2`. -/
  setupKept : u.busy = true → preparedOf u = setupCoefficients u.k u.b1 u.b2

/-- Two instances are not both running an `APPLY` over a common address (R49). -/
abbrev framesApart (u v : Vrf) : Prop :=
  u.busy = true → v.busy = true → framesOverlap (latchedFrame u) (latchedFrame v) = false

/-- What holds in every state a run reaches. -/
structure State.Inv (s : State) : Prop where
  /-- R7: 1 <= `MEM_WORDS` <= 2^32. -/
  memWords : 1 ≤ s.plat.memWords ∧ s.plat.memWords ≤ 2 ^ 32
  /-- R7: `N_INST` >= 1. -/
  instances : s.vrfs ≠ []
  /-- Sample memory is in canonical form. -/
  memWf : s.mem.wf
  /-- R41: only addresses below `MEM_WORDS` exist. -/
  memBound : ∀ c ∈ s.mem, c.1 < s.plat.memWords
  /-- Every instance meets its own invariant. -/
  each : ∀ u ∈ s.vrfs, u.Inv s.plat.memWords
  /-- R49: running frames are pairwise disjoint. -/
  disjoint : s.vrfs.Pairwise framesApart

/-- An instance that a host write reaches: `BUSY` = 0 and `FAULT` = 0 (R98). -/
abbrev Vrf.ready (u : Vrf) : Prop := u.busy = false ∧ u.fault = false

/-- The host register write the next step takes, as instance, offset, width and word: a write in a window, or at a byte
address of the host bus (R15, R66). -/
def nextWrite (s : State) : Option (Nat × Nat × Nat × Word) :=
  match s.pending with
  | .regWrite j off size d :: _ => some (j, off, size, d)
  | .busWrite addr size d :: _ => (busWindow s.plat.filtBase addr).map fun w => (w.1, w.2, size, d)
  | _ => none

/-- Whether the next step resets instance `j` (R132). -/
def nextResets (s : State) (j : Nat) : Bool :=
  match s.pending with
  | .resetOne i :: _ => i == j
  | .resetAll :: _ => true
  | _ => false

/-- `n` steps of the machine, stopping at the first fault or refusal. -/
def runSteps : Nat → State → Result
  | 0, s => .next s
  | n + 1, s =>
    match step s with
    | .next t => runSteps n t
    | .fault r => .fault r
    | .refused r => .refused r

/-- R105: the instance steps the running `APPLY`s still take, the commit of each included. -/
def stepsLeft (s : State) : Nat :=
  (s.vrfs.map fun u => if u.busy then u.lcount.toNat - u.idx.toNat + 1 else 0).sum

/-- R148: the host program is done and every instance has `BUSY` = 0. -/
abbrev State.ended (s : State) : Prop := s.pending = [] ∧ ∀ u ∈ s.vrfs, u.busy = false

/-- R121, R148: a good final state is an ended run with no faulted instance. -/
abbrev State.goodEnd (s : State) : Prop := s.ended ∧ ∀ u ∈ s.vrfs, u.fault = false

end Sys2Proof.Machine
end

