-- ==== Sys2Proof/Certificates/Slice0/Obligations.lean ====
section
/-! DEFINITION. The statements for the provers. Each docstring names the rules of spec/ the statement formalises.
The words used more than once (the value of a register read, the effect of a register write, the output sample) are
written out first, from the spec and not from the model's operations. -/

open Sys2Proof Sys2Proof.Machine

namespace Sys2Proof.Spec

/-- R116: the number of a fault code. -/
def faultNumber : FCode → Nat
  | .noFault => 0
  | .illegalCmd => 1
  | .notPrepared => 2
  | .nullFrame => 3
  | .badStride => 4
  | .outOfRange => 5
  | .busyWrite => 6

/-- R96: the word a read at offset `off` returns. -/
def readValue (u : Vrf) (off : Nat) : Word :=
  if off = 0x04 then
    BitVec.ofNat 32 (256 * faultNumber u.fcode + 4 * u.prep.toNat + 2 * u.fault.toNat + u.busy.toNat)
  else if off = 0x08 then BitVec.ofNat 32 u.k.toNat
  else if off = 0x0C then BitVec.ofNat 32 u.b1.toNat
  else if off = 0x10 then BitVec.ofNat 32 u.b2.toNat
  else if off = 0x14 then BitVec.ofNat 32 u.z1.toNat
  else if off = 0x18 then BitVec.ofNat 32 u.z2.toNat
  else if off = 0x1C then BitVec.ofNat 32 u.xy.toNat
  else if off = 0x20 then u.fbase
  else if off = 0x24 then u.fcount
  else if off = 0x28 then u.fstride
  else if off = 0x2C then u.kh
  else if off = 0x30 then u.nb1
  else if off = 0x34 then u.nb2
  else if off = 0x38 then u.idx
  else 0#32

/-- R97: a ready instance after a write of `d` at an offset other than that of `CMD`. -/
def written (u : Vrf) (off : Nat) (d : Word) : Vrf :=
  if off = 0x08 then { u with k := BitVec.ofNat 16 d.toNat }
  else if off = 0x0C then { u with b1 := BitVec.ofNat 16 d.toNat }
  else if off = 0x10 then { u with b2 := BitVec.ofNat 16 d.toNat }
  else if off = 0x14 then { u with z1 := BitVec.ofNat 16 d.toNat }
  else if off = 0x18 then { u with z2 := BitVec.ofNat 16 d.toNat }
  else if off = 0x1C then { u with xy := BitVec.ofNat 16 d.toNat }
  else if off = 0x20 then { u with fbase := d }
  else if off = 0x24 then { u with fcount := d }
  else if off = 0x28 then { u with fstride := d }
  else u

/-- R84: the exact sum `KH*x + NB1*z1 + NB2*z2`. -/
def sum (kh nb1 nb2 : Word) (z1 z2 x : Sample) : Int :=
  kh.toInt * x.toInt + nb1.toInt * z1.toInt + nb2.toInt * z2.toInt

/-- R78, R80, R82: the output of a sample step: the sum in a 32-bit register, shifted right by 14 rounding toward
minus infinity, the low 16 bits of that. -/
def output (kh nb1 nb2 : Word) (z1 z2 x : Sample) : Sample :=
  BitVec.ofInt 16 ((BitVec.ofInt 32 (sum kh nb1 nb2 z1 z2 x)).toInt / 16384)

/-- R100, R103: an instance after the setup. -/
def prepared (u : Vrf) : Vrf :=
  { u with
    kh := BitVec.ofInt 32 (u.k.toInt / 2)
    nb1 := BitVec.ofInt 32 (-u.b1.toInt)
    nb2 := BitVec.ofInt 32 ((-u.b2.toInt) / 2)
    prep := true }

/-- R103: an instance after the start of an `APPLY`. -/
def started (u : Vrf) : Vrf :=
  { prepared u with
    lbase := u.fbase
    lcount := u.fcount
    lstride := u.fstride
    w1 := u.z1
    w2 := u.z2
    idx := 0#32
    busy := true }

/-- R102: the frame in the host's registers passes the checks of `APPLY`. -/
def frameOk (memWords : Nat) (u : Vrf) : Prop :=
  (1 ≤ u.fcount.toNat → u.fbase.toNat ≠ 0) ∧ (2 ≤ u.fcount.toNat → u.fstride.toNat ≠ 0) ∧
    (1 ≤ u.fcount.toNat → u.fbase.toNat + (u.fcount.toNat - 1) * u.fstride.toNat < memWords)

/-- R49: no other running `APPLY` has an address of the frame in the host's registers of `u`, instance `j`. -/
def frameFree (s : State) (j : Nat) (u : Vrf) : Prop :=
  ∀ i v, i ≠ j → s.vrfs[i]? = some v → v.busy = true → ∀ p < u.fcount.toNat, ∀ q < v.lcount.toNat,
    u.fbase.toNat + p * u.fstride.toNat ≠ v.lbase.toNat + q * v.lstride.toNat

/-- R103, R107: the samples of the frame in the host's registers. -/
def frameSamples (m : Memory) (u : Vrf) : List Sample :=
  (List.range u.fcount.toNat).map fun i => memGet m (u.fbase.toNat + i * u.fstride.toNat)

end Sys2Proof.Spec

open Sys2Proof.Spec

/-! ### Encoding and the step -/

/-- R60, R61: the four words of the opcode map decode to their commands, and words on both sides of each boundary of
the illegal class do not decode. -/
def Obligations.TableWordsDecode : Prop :=
  decodeCommand 0x00000000#32 = .ok .nop ∧ decodeCommand 0x00000001#32 = .ok .setup ∧
    decodeCommand 0x00000002#32 = .ok .step ∧ decodeCommand 0x00000003#32 = .ok .apply ∧
      decodeCommand 0x00000004#32 = .error .reservedOp ∧ decodeCommand 0x0000000F#32 = .error .reservedOp ∧
        decodeCommand 0x00000010#32 = .error .reservedBits ∧ decodeCommand 0x80000003#32 = .error .reservedBits

/-- R60: decoding the encoding of a command gives it back. -/
def Obligations.DecodeOfEncode : Prop :=
  ∀ i : Instr, decodeCommand (encode i) = .ok i

/-- R60, R61: a word decodes to a command exactly when it is that command's word, and it is illegal exactly when
`RSV` is not 0 or `OP` is 4 or more. -/
def Obligations.DecodeIsExact : Prop :=
  (∀ (d : Word) (i : Instr), decodeCommand d = .ok i ↔ d = encode i) ∧
    ∀ d : Word, (∃ e, decodeCommand d = .error e) ↔ d.toNat / 16 ≠ 0 ∨ 4 ≤ d.toNat % 16

/-- R97, R98: when the next thing to happen is a host write of a command's word to `CMD` of an existing instance,
the step is `exec` of that command on that instance, the write taken off the list. That the write stands at the
head of State.pending and that exec runs on State.sel is the model's choice (log entries 2, 4, 5). -/
def Obligations.StepRunsDecodedCommand : Prop :=
  ∀ (s : State) (j : Nat) (d : Word) (rest : List HostOp) (u : Vrf) (i : Instr),
    s.pending = .regWrite j 0 4 d :: rest → s.vrfs[j]? = some u → decodeCommand d = .ok i →
      step s = exec i { s with pending := rest, sel := j }

/-- R15, R57: an access at byte address `FILT_BASE + 0x100 * j + off` of the host bus is the access at offset `off` of
instance `j`'s window. The model's choices in it: the bus access is an entry of State.pending (log entry 2); the
statement speaks of every `j`, and for a `j` that is no instance, which has no window, both accesses are refused alike
(log entry 13, width and alignment first, log entry 21); and it speaks of every width, where the first byte alone
decides the window, also of an access whose last bytes leave it (log entry 23). -/
def Obligations.BusAddressReachesWindow : Prop :=
  ∀ (s : State) (j off size : Nat) (d : Word) (rest : List HostOp), off < 0x100 →
    step { s with pending := .busWrite (s.plat.filtBase + 0x100 * j + off) size d :: rest } =
        step { s with pending := .regWrite j off size d :: rest } ∧
      step { s with pending := .busRead (s.plat.filtBase + 0x100 * j + off) size :: rest } =
        step { s with pending := .regRead j off size :: rest }

/-- R61: writing a word with a nonzero `RSV` or an `OP` of 4 or more to `CMD` of a ready instance raises `ILLEGAL_CMD`
and has no other effect. -/
def Obligations.IllegalWordRaisesIllegalCmd : Prop :=
  ∀ (s : State) (j : Nat) (d : Word) (rest : List HostOp) (u : Vrf),
    s.pending = .regWrite j 0 4 d :: rest → s.vrfs[j]? = some u → u.busy = false → u.fault = false →
      (d.toNat / 16 ≠ 0 ∨ 4 ≤ d.toNat % 16) →
        step s = .next { s with
          pending := rest
          sel := j
          vrfs := s.vrfs.set j { u with fault := true, fcode := .illegalCmd } }

/-! ### Register accesses -/

/-- R97, R121: a faulted instance ignores every host write, commands among them: no state element of the VRF changes. -/
def Obligations.FaultedInstanceIgnoresWrites : Prop :=
  ∀ (s : State) (j off : Nat) (d : Word) (rest : List HostOp) (u : Vrf),
    s.pending = .regWrite j off 4 d :: rest → off % 4 = 0 → off < 0x100 → s.vrfs[j]? = some u → u.fault = true →
      step s = .next { s with pending := rest, sel := j }

/-- R97, R118, R139: every host write to a busy, unfaulted instance is dropped and raises `BUSY_WRITE`; nothing but
`FAULT` and `FCODE` changes, so the running `APPLY` goes on. -/
def Obligations.BusyInstanceDropsWrites : Prop :=
  ∀ (s : State) (j off : Nat) (d : Word) (rest : List HostOp) (u : Vrf),
    s.pending = .regWrite j off 4 d :: rest → off % 4 = 0 → off < 0x100 → s.vrfs[j]? = some u → u.fault = false →
      u.busy = true →
        step s = .next { s with
          pending := rest
          sel := j
          vrfs := s.vrfs.set j { u with fault := true, fcode := .busyWrite } }

/-- R97, R30, R63, R64: a write at an offset other than that of `CMD` to a ready instance stores its field, the low 16
bits in a 16-bit register and the whole word in a 32-bit one, and nothing at a read-only or reserved offset. In
particular a write of `K`, `B1` or `B2` leaves `KH`, `NB1`, `NB2` as they were (R140). -/
def Obligations.RegisterWriteStores : Prop :=
  ∀ (s : State) (j off : Nat) (d : Word) (rest : List HostOp) (u : Vrf),
    s.pending = .regWrite j off 4 d :: rest → off % 4 = 0 → 0 < off → off < 0x100 → s.vrfs[j]? = some u →
      u.busy = false → u.fault = false →
        step s = .next { s with pending := rest, sel := j, vrfs := s.vrfs.set j (written u off d) }

/-- R96: a host read returns the register's value and changes no state element of the VRF, in every state, with
`BUSY` = 1 or `FAULT` = 1 too. That the value is recorded in State.seen is the model's choice (log entry 12). -/
def Obligations.RegisterReadReturns : Prop :=
  ∀ (s : State) (j off : Nat) (rest : List HostOp) (u : Vrf),
    s.pending = .regRead j off 4 :: rest → off % 4 = 0 → off < 0x100 → s.vrfs[j]? = some u →
      step s = .next { s with pending := rest, sel := j, seen := .reg j off (readValue u off) :: s.seen }

/-- R18, R63, R64: what was written to a register of a ready instance reads back, zero-extended from 16 bits at
offsets 0x08 to 0x1C and whole at 0x20 to 0x28. That reads are recorded in State.seen is the model's choice (log
entry 12). -/
def Obligations.WrittenRegisterReadsBack : Prop :=
  ∀ (s : State) (j off : Nat) (d : Word) (rest : List HostOp) (u : Vrf),
    s.pending = .regWrite j off 4 d :: .regRead j off 4 :: rest → off % 4 = 0 → 0x08 ≤ off → off ≤ 0x28 →
      s.vrfs[j]? = some u → u.busy = false → u.fault = false →
        ∃ t, runSteps 2 s = .next t ∧ t.pending = rest ∧
          t.seen = .reg j off (if off ≤ 0x1C then BitVec.ofNat 32 (d.toNat % 65536) else d) :: s.seen

/-- R55: a register access that is not 32 bits wide at a multiple of 4 is refused, whatever the state. That it is
refused under this name outside every window too, the width and the alignment looked at before the window, is the
model's choice (log entries 13, 21). -/
def Obligations.SubwordAccessRefused : Prop :=
  ∀ (s : State) (j off size : Nat) (d : Word) (rest : List HostOp), (size ≠ 4 ∨ off % 4 ≠ 0) →
    step { s with pending := .regRead j off size :: rest } = .refused .subwordRegisterAccess ∧
      step { s with pending := .regWrite j off size d :: rest } = .refused .subwordRegisterAccess

/-! ### The commands -/

/-- R99: on a ready instance `NOP` completes and leaves everything as it was. -/
def Obligations.NopChangesNothing : Prop :=
  ∀ (s : State) (u : Vrf), s.vrfs[s.sel]? = some u → u.busy = false → u.fault = false →
    exec .nop s = .next s

/-- R100: on a ready instance `SETUP` completes, sets `KH`, `NB1`, `NB2` from `K`, `B1`, `B2`, sets `PREP`, and changes
nothing else. -/
def Obligations.SetupPrepares : Prop :=
  ∀ (s : State) (u : Vrf), s.vrfs[s.sel]? = some u → u.busy = false → u.fault = false →
    exec .setup s = .next { s with vrfs := s.vrfs.set s.sel (prepared u) }

/-- R74, R75, R76: the setup unit computes `floor(K / 2)`, `-b1` and `floor(-b2 / 2)`, held exactly for every
coefficient, in the ranges the rules give. -/
def Obligations.SetupValuesExact : Prop :=
  ∀ k b1 b2 : Sample,
    ((setupCoefficients k b1 b2).kh.toInt = k.toInt / 2 ∧
        -16384 ≤ (setupCoefficients k b1 b2).kh.toInt ∧ (setupCoefficients k b1 b2).kh.toInt ≤ 16383) ∧
      ((setupCoefficients k b1 b2).nb1.toInt = -b1.toInt ∧
          -32767 ≤ (setupCoefficients k b1 b2).nb1.toInt ∧ (setupCoefficients k b1 b2).nb1.toInt ≤ 32768) ∧
        ((setupCoefficients k b1 b2).nb2.toInt = (-b2.toInt) / 2 ∧
          -16384 ≤ (setupCoefficients k b1 b2).nb2.toInt ∧ (setupCoefficients k b1 b2).nb2.toInt ≤ 16384)

/-- R100: a second `SETUP` with unchanged `K`, `B1`, `B2` changes nothing. -/
def Obligations.SetupTwiceIsOnce : Prop :=
  ∀ (s : State) (u : Vrf), s.vrfs[s.sel]? = some u → u.busy = false → u.fault = false →
    ∃ t, exec .setup s = .next t ∧ exec .setup t = .next t

/-- R101: on a ready, prepared instance `STEP` completes; `XY` and `Z1` take the output, `Z2` the old `Z1`, and nothing
else of the instance changes but `ACC`, which is not constrained. -/
def Obligations.StepFiltersTheLatch : Prop :=
  ∀ (s : State) (u : Vrf), s.vrfs[s.sel]? = some u → u.busy = false → u.fault = false → u.prep = true →
    ∃ a : Word, exec .step s = .next { s with
      vrfs := s.vrfs.set s.sel { u with
        acc := a
        xy := output u.kh u.nb1 u.nb2 u.z1 u.z2 u.xy
        z1 := output u.kh u.nb1 u.nb2 u.z1 u.z2 u.xy
        z2 := u.z1 } }

/-- R101, R138: with `PREP` = 0, `STEP` on a ready instance raises `NOT_PREPARED` and has no other effect. -/
def Obligations.StepWithoutSetupFaults : Prop :=
  ∀ (s : State) (u : Vrf), s.vrfs[s.sel]? = some u → u.busy = false → u.fault = false → u.prep = false →
    exec .step s = .next { s with vrfs := s.vrfs.set s.sel { u with fault := true, fcode := .notPrepared } }

/-- R102, R119: the checks of `APPLY` on a ready instance, in their order, each raising its code with no other
effect. -/
def Obligations.ApplyChecksInOrder : Prop :=
  ∀ (s : State) (u : Vrf), s.vrfs[s.sel]? = some u → u.busy = false → u.fault = false →
    (1 ≤ u.fcount.toNat ∧ u.fbase = 0#32 →
        exec .apply s = .next { s with vrfs := s.vrfs.set s.sel { u with fault := true, fcode := .nullFrame } }) ∧
      (2 ≤ u.fcount.toNat ∧ u.fbase ≠ 0#32 ∧ u.fstride = 0#32 →
          exec .apply s = .next { s with vrfs := s.vrfs.set s.sel { u with fault := true, fcode := .badStride } }) ∧
        (1 ≤ u.fcount.toNat ∧ u.fbase ≠ 0#32 ∧ (u.fcount.toNat = 1 ∨ u.fstride ≠ 0#32) ∧
            s.plat.memWords ≤ u.fbase.toNat + (u.fcount.toNat - 1) * u.fstride.toNat →
          exec .apply s = .next { s with vrfs := s.vrfs.set s.sel { u with fault := true, fcode := .outOfRange } })

/-- R103: on a ready instance whose frame passes the checks and meets no running frame, `APPLY` completes with the
setup done, the frame and the delay line latched, `IDX` = 0 and `BUSY` = 1. -/
def Obligations.ApplyStarts : Prop :=
  ∀ (s : State) (u : Vrf), s.vrfs[s.sel]? = some u → u.busy = false → u.fault = false →
    frameOk s.plat.memWords u → frameFree s s.sel u →
      exec .apply s = .next { s with vrfs := s.vrfs.set s.sel (started u) }

/-- R49: an `APPLY` whose accepted frame shares an address with that of another running `APPLY` is refused. R49 refuses
the run in which both have `BUSY` = 1; that the refusal comes at the start of the second `APPLY`, after the checks of
R102, is the model's choice (log entry 20). -/
def Obligations.OverlappingApplyRefused : Prop :=
  ∀ (s : State) (u : Vrf), s.vrfs[s.sel]? = some u → u.busy = false → u.fault = false →
    frameOk s.plat.memWords u → ¬ frameFree s s.sel u → exec .apply s = .refused .overlappingFrames

/-- The frame of the four commands (R99 to R103, R118): whenever a command answers a next state, only the selected
instance changed and every sample reads as before; `K`, `B1`, `B2`, `FBASE`, `FCOUNT`, `FSTRIDE` never change; the
delay line, `XY` and `ACC` only by `STEP`; the prepared set and `PREP` only by `SETUP` and `APPLY`; `BUSY`, `IDX`, the
working delay line and the latched frame only by `APPLY`; and `FAULT` and `FCODE` only by raising a first fault.
R31 lets `ACC` hold anything between sample steps: that the other commands keep it (the clause `v.acc = u.acc`) is no
rule of the spec but the model's choice (log entry 8). -/
def Obligations.CommandFrame : Prop :=
  ∀ (i : Instr) (s t : State), exec i s = .next t →
    t.plat = s.plat ∧ t.sel = s.sel ∧ t.pending = s.pending ∧ t.seen = s.seen ∧ t.choices = s.choices ∧
      (∀ a, memGet t.mem a = memGet s.mem a) ∧ (∀ j, j ≠ s.sel → t.vrfs[j]? = s.vrfs[j]?) ∧
        ∃ u v, s.vrfs[s.sel]? = some u ∧ t.vrfs[s.sel]? = some v ∧
          (v.k = u.k ∧ v.b1 = u.b1 ∧ v.b2 = u.b2 ∧ v.fbase = u.fbase ∧ v.fcount = u.fcount ∧
            v.fstride = u.fstride) ∧
          (i ≠ .step → v.z1 = u.z1 ∧ v.z2 = u.z2 ∧ v.xy = u.xy ∧ v.acc = u.acc) ∧
          (i ≠ .setup → i ≠ .apply → v.kh = u.kh ∧ v.nb1 = u.nb1 ∧ v.nb2 = u.nb2 ∧ v.prep = u.prep) ∧
          (i ≠ .apply → v.busy = u.busy ∧ v.idx = u.idx ∧ v.w1 = u.w1 ∧ v.w2 = u.w2 ∧ v.lbase = u.lbase ∧
            v.lcount = u.lcount ∧ v.lstride = u.lstride) ∧
          (v.fault = u.fault ∧ v.fcode = u.fcode ∨ u.fault = false ∧ v.fault = true ∧ v.fcode ≠ .noFault)

/-! ### The datapath -/

/-- R79: for every input, every partial sum of the three products lies in `-2147467264 .. 2147450880`, the 32-bit
accumulator holds the exact sum, and both ends are reached. -/
def Obligations.AccumulatorNeverOverflows : Prop :=
  (∀ k b1 b2 x z1 z2 : Sample,
    let p := setupCoefficients k b1 b2
    let p0 := p.kh.toInt * x.toInt
    let p1 := p.nb1.toInt * z1.toInt
    let p2 := p.nb2.toInt * z2.toInt
    (∀ v ∈ [p0, p1, p2, p0 + p1, p0 + p2, p1 + p2, p0 + p1 + p2], -2147467264 ≤ v ∧ v ≤ 2147450880) ∧
      (accumulate p ⟨z1, z2⟩ x).toInt = p0 + p1 + p2) ∧
    (accumulate (setupCoefficients (-32768) (-32768) 32767) ⟨32767, -32768⟩ (-32768)).toInt = 2147450880 ∧
      (accumulate (setupCoefficients (-32768) (-32768) (-32768)) ⟨-32768, -32768⟩ 32767).toInt = -2147467264

/-- R81: for every input the shifted sum is an 18-bit signed value, `-131071 .. 131070`. -/
def Obligations.ShiftedSumIsEighteenBits : Prop :=
  ∀ k b1 b2 x z1 z2 : Sample,
    -131071 ≤ shiftAcc (accumulate (setupCoefficients k b1 b2) ⟨z1, z2⟩ x) ∧
      shiftAcc (accumulate (setupCoefficients k b1 b2) ⟨z1, z2⟩ x) ≤ 131070

/-- R82: the narrowing keeps the 16-bit values and wraps the others modulo 65536. -/
def Obligations.NarrowingWraps : Prop :=
  ∀ v : Int, (-32768 ≤ v ∧ v ≤ 32767 → (narrow v).toInt = v) ∧
    (∃ m : Int, (narrow v).toInt = v + 65536 * m) ∧ -32768 ≤ (narrow v).toInt ∧ (narrow v).toInt ≤ 32767

/-- R84, R80: with prepared coefficients in their ranges (R27 to R29) the output of a sample step is the low 16 bits of
the floor of the exact sum divided by 16384, and the delay line becomes `(y, z1)` (R83). -/
def Obligations.SampleStepIsExact : Prop :=
  ∀ (p : Prepared) (z : Delay) (x : Sample), preparedInRange p →
    (filterStep p z x).1 = BitVec.ofInt 16 (sum p.kh p.nb1 p.nb2 z.z1 z.z2 x / 16384) ∧
      (filterStep p z x).2 = ⟨(filterStep p z x).1, z.z1⟩

/-- R88: zero input from a zero delay line gives zero output and a zero delay line, for every coefficient set and
every length. -/
def Obligations.ZeroInZeroOut : Prop :=
  ∀ (p : Prepared) (n : Nat),
    filterBlock p ⟨0#16, 0#16⟩ (List.replicate n 0#16) = (List.replicate n 0#16, ⟨0#16, 0#16⟩)

/-- R89: processing a sequence in two blocks, the delay line handed on, gives the outputs and the delay line of one
block, for Block and for Apply. -/
def Obligations.StateContinuity : Prop :=
  (∀ (p : Prepared) (z z' z'' : Delay) (xs xs' ys ys' : List Sample),
    filterBlock p z xs = (ys, z') → filterBlock p z' xs' = (ys', z'') →
      filterBlock p z (xs ++ xs') = (ys ++ ys', z'')) ∧
    ∀ (k b1 b2 : Sample) (z z' z'' : Delay) (xs xs' ys ys' : List Sample),
      filterApply k b1 b2 z xs = (ys, z') → filterApply k b1 b2 z' xs' = (ys', z'') →
        filterApply k b1 b2 z (xs ++ xs') = (ys ++ ys', z'')

/-- R90: one sample gives one output, from the delay line, the input and the coefficients, and the delay line
`(y, z1)`; the output is the exact one of R84. -/
def Obligations.OneSampleBlock : Prop :=
  ∀ (k b1 b2 z1 z2 x : Sample),
    ∃ y : Sample, filterApply k b1 b2 ⟨z1, z2⟩ [x] = ([y], ⟨y, z1⟩) ∧
      y = BitVec.ofInt 16 ((k.toInt / 2 * x.toInt + -b1.toInt * z1.toInt + -b2.toInt / 2 * z2.toInt) / 16384)

/-- R46: the addresses of a frame that passed the checks of `APPLY` are pairwise distinct and exist (R42). -/
def Obligations.FrameAddressesDistinct : Prop :=
  ∀ (memWords : Nat) (f : Frame), applyCheck memWords f = none →
    ∀ p < f.count, f.base + p * f.stride < memWords ∧
      ∀ q < f.count, p ≠ q → f.base + p * f.stride ≠ f.base + q * f.stride

/-! ### The sequencer -/

/-- R104: with `BUSY` = 1, `IDX < LCOUNT` and an existing address, the instance step completes: it replaces the one
sample at `LBASE + IDX * LSTRIDE` by the output, shifts the working delay line and advances `IDX` by 1; every other
sample, every other instance and the rest of the instance but `ACC` are as before. -/
def Obligations.SampleStepFiltersOneSample : Prop :=
  ∀ (s : State) (j : Nat) (u : Vrf) (a : Nat) (y : Sample), s.mem.wf → s.vrfs[j]? = some u → u.busy = true →
    u.idx.toNat < u.lcount.toNat → a = u.lbase.toNat + u.idx.toNat * u.lstride.toNat → a < s.plat.memWords →
      y = output u.kh u.nb1 u.nb2 u.w1 u.w2 (memGet s.mem a) →
        ∃ (t : State) (c : Word), instanceStep j s = .next t ∧
          t = { s with
            mem := t.mem
            vrfs := s.vrfs.set j { u with acc := c, w1 := y, w2 := u.w1, idx := u.idx + 1#32 } } ∧
          memGet t.mem a = y ∧ ∀ b, b ≠ a → memGet t.mem b = memGet s.mem b

/-- R106: with `BUSY` = 1 and `IDX = LCOUNT` the instance step commits: `Z1`, `Z2` take the working delay line, `BUSY`
becomes 0, and nothing else changes. -/
def Obligations.CommitWritesBack : Prop :=
  ∀ (s : State) (j : Nat) (u : Vrf), s.vrfs[j]? = some u → u.busy = true → u.idx = u.lcount →
    instanceStep j s = .next { s with vrfs := s.vrfs.set j { u with z1 := u.w1, z2 := u.w2, busy := false } }

/-- The frame of the instance steps (R104, R106, R45, R112, R130, R141): the other instances, the host's registers but
`Z1`, `Z2`, the prepared set, `PREP`, `FAULT`, `FCODE` and the latched frame are as before, and so is every sample but
the one at `LBASE + IDX * LSTRIDE` of a sample step. A sample step keeps `Z1`, `Z2` and `BUSY` too, so that only the
commit changes those, and an idle instance keeps everything. With `IDX` above `LCOUNT`, which no run reaches, the step
is the commit (log entry 15). -/
def Obligations.InstanceStepFrame : Prop :=
  ∀ (s t : State) (j : Nat) (u : Vrf), instanceStep j s = .next t → s.vrfs[j]? = some u →
    t.plat = s.plat ∧ t.sel = s.sel ∧ t.pending = s.pending ∧ t.seen = s.seen ∧ t.choices = s.choices ∧
      (∀ i, i ≠ j → t.vrfs[i]? = s.vrfs[i]?) ∧
      (∃ v, t.vrfs[j]? = some v ∧ v.k = u.k ∧ v.b1 = u.b1 ∧ v.b2 = u.b2 ∧ v.xy = u.xy ∧ v.fbase = u.fbase ∧
        v.fcount = u.fcount ∧ v.fstride = u.fstride ∧ v.kh = u.kh ∧ v.nb1 = u.nb1 ∧ v.nb2 = u.nb2 ∧
        v.prep = u.prep ∧ v.fault = u.fault ∧ v.fcode = u.fcode ∧ v.lbase = u.lbase ∧ v.lcount = u.lcount ∧
        v.lstride = u.lstride ∧
        (u.busy = true ∧ u.idx.toNat < u.lcount.toNat → v.z1 = u.z1 ∧ v.z2 = u.z2 ∧ v.busy = true) ∧
        (u.busy = false → v = u)) ∧
      (u.busy = true ∧ u.idx.toNat < u.lcount.toNat →
        ∀ a, a ≠ u.lbase.toNat + u.idx.toNat * u.lstride.toNat → memGet t.mem a = memGet s.mem a) ∧
      (u.busy = false ∨ u.lcount.toNat ≤ u.idx.toNat → ∀ a, memGet t.mem a = memGet s.mem a)

/-- R107, R105: an `APPLY` on a ready instance, its frame accepted and free, ends after `FCOUNT` sample steps and a
commit. The frame then holds the outputs of Apply over the samples it held, every other sample and every other
instance are as before, `Z1`, `Z2` hold the final delay line, the prepared set is that of `K`, `B1`, `B2`,
`PREP` = 1, `IDX` = `FCOUNT`, `BUSY` = 0, and `K`, `B1`, `B2`, `XY`, `FBASE`, `FCOUNT`, `FSTRIDE` and the fault
fields are unchanged. The steps are those listed in State.pending (log entry 2), one after the other. -/
def Obligations.ApplyFiltersTheFrame : Prop :=
  ∀ (s : State) (j : Nat) (u : Vrf), s.Inv → s.vrfs[j]? = some u → u.busy = false → u.fault = false →
    frameOk s.plat.memWords u → frameFree s j u →
    s.pending = .regWrite j 0 4 0x00000003#32 :: List.replicate (u.fcount.toNat + 1) (.instanceStep j) →
      ∃ (t : State) (v : Vrf) (ys : List Sample) (z : Delay),
        filterApply u.k u.b1 u.b2 ⟨u.z1, u.z2⟩ (frameSamples s.mem u) = (ys, z) ∧
        runSteps (u.fcount.toNat + 2) s = .next t ∧ t.pending = [] ∧ t.vrfs[j]? = some v ∧
        (∀ i, i ≠ j → t.vrfs[i]? = s.vrfs[i]?) ∧
        (∀ i < u.fcount.toNat, ys[i]? = some (memGet t.mem (u.fbase.toNat + i * u.fstride.toNat))) ∧
        (∀ a, (∀ i < u.fcount.toNat, a ≠ u.fbase.toNat + i * u.fstride.toNat) → memGet t.mem a = memGet s.mem a) ∧
        v.z1 = z.z1 ∧ v.z2 = z.z2 ∧
        v.kh = (prepared u).kh ∧ v.nb1 = (prepared u).nb1 ∧ v.nb2 = (prepared u).nb2 ∧ v.prep = true ∧
        v.idx = u.fcount ∧ v.busy = false ∧ v.k = u.k ∧ v.b1 = u.b1 ∧ v.b2 = u.b2 ∧ v.xy = u.xy ∧
        v.fbase = u.fbase ∧ v.fcount = u.fcount ∧ v.fstride = u.fstride ∧ v.fault = u.fault ∧ v.fcode = u.fcode

/-- R108: an `APPLY` with `FCOUNT` = 0 on a ready instance checks neither `FBASE` nor `FSTRIDE`, whatever they hold and
whatever else runs; the setup runs, the commit follows at the next instance step, and no sample and neither of `Z1`,
`Z2` changes. -/
def Obligations.EmptyApplyOnlyPrepares : Prop :=
  ∀ (s : State) (u : Vrf), s.vrfs[s.sel]? = some u → u.busy = false → u.fault = false → u.fcount = 0#32 →
    ∃ t, exec .apply s = .next t ∧
      instanceStep s.sel t = .next { s with
        vrfs := s.vrfs.set s.sel { started u with busy := false } }

/-- R109: an `APPLY` with `FCOUNT` = 1 on a ready instance does not look at `FSTRIDE`: with `FBASE` an existing address
other than 0 that no running frame has, two instance steps filter the one sample at `FBASE`, and the delay line becomes
`(y, Z1)`. -/
def Obligations.SingleSampleApply : Prop :=
  ∀ (s : State) (u : Vrf) (y : Sample), s.mem.wf → s.vrfs[s.sel]? = some u → u.busy = false → u.fault = false →
    u.fcount = 1#32 → u.fbase ≠ 0#32 → u.fbase.toNat < s.plat.memWords →
    (∀ i v, i ≠ s.sel → s.vrfs[i]? = some v → v.busy = true → ∀ q < v.lcount.toNat,
      u.fbase.toNat ≠ v.lbase.toNat + q * v.lstride.toNat) →
    y = output (prepared u).kh (prepared u).nb1 (prepared u).nb2 u.z1 u.z2 (memGet s.mem u.fbase.toNat) →
      ∃ t₁ t₂ t₃ v, exec .apply s = .next t₁ ∧ instanceStep s.sel t₁ = .next t₂ ∧
        instanceStep s.sel t₂ = .next t₃ ∧ t₃.vrfs[s.sel]? = some v ∧ v.busy = false ∧ v.z1 = y ∧ v.z2 = u.z1 ∧
        memGet t₃.mem u.fbase.toNat = y ∧ ∀ a, a ≠ u.fbase.toNat → memGet t₃.mem a = memGet s.mem a

/-- R110, R70: on a ready, prepared instance, writing each input to `XY`, issuing `STEP` and reading `XY` back gives
the host, sample by sample, the outputs of Block over those inputs, and leaves its final delay line in `Z1`,
`Z2`; sample memory is untouched. So `n` `STEP`s compute what one `APPLY` over the same samples computes (R107).
The accesses are those listed in State.pending, the reads recorded in State.seen (log entries 2, 12). -/
def Obligations.StepsComputeTheBlock : Prop :=
  ∀ (xs : List Sample) (s : State) (j : Nat) (u : Vrf) (rest : List HostOp), s.vrfs[j]? = some u →
    u.busy = false → u.fault = false → u.prep = true →
    s.pending = xs.flatMap (fun x =>
      [.regWrite j 0x1C 4 (BitVec.ofNat 32 x.toNat), .regWrite j 0 4 0x00000002#32, .regRead j 0x1C 4]) ++ rest →
      ∃ (t : State) (v : Vrf) (ys : List Sample) (z : Delay),
        filterBlock ⟨u.kh, u.nb1, u.nb2⟩ ⟨u.z1, u.z2⟩ xs = (ys, z) ∧
        runSteps (3 * xs.length) s = .next t ∧ t.pending = rest ∧ t.vrfs[j]? = some v ∧
        v.z1 = z.z1 ∧ v.z2 = z.z2 ∧ t.mem = s.mem ∧
        t.seen = (ys.map fun y => Seen.reg j 0x1C (BitVec.ofNat 32 y.toNat)).reverse ++ s.seen

/-- R105, R146: from every state that meets the invariant, once the host is silent the running `APPLY`s end after
exactly the sum over them of `LCOUNT - IDX + 1` steps, whichever instance each step picks. With no pending entry
a free value picks the instance: the model's choice (log entry 3). -/
def Obligations.EveryApplyEnds : Prop :=
  ∀ s : State, s.Inv → s.pending = [] →
    (∃ t, runSteps (stepsLeft s) s = .next t ∧ t.ended) ∧
      ∀ n < stepsLeft s, ∃ t, runSteps n s = .next t ∧ ∃ u ∈ t.vrfs, u.busy = true

/-- R47, R52: steps of two different running instances commute, to the same state in either order: the order in which
the instances take their steps cannot be told from the result. -/
def Obligations.InstanceStepsCommute : Prop :=
  ∀ (s : State) (i j : Nat) (u v : Vrf), s.Inv → i ≠ j → s.vrfs[i]? = some u → s.vrfs[j]? = some v →
    u.busy = true → v.busy = true →
      ∃ a b t, instanceStep i s = .next a ∧ instanceStep j a = .next t ∧
        instanceStep j s = .next b ∧ instanceStep i b = .next t

/-! ### Host, reset and idle -/

/-- R48: a host read or write of a frame address of a running `APPLY` is refused. -/
def Obligations.RunningFrameIsTheInstances : Prop :=
  ∀ (s : State) (j p a : Nat) (w : Sample) (u : Vrf) (rest : List HostOp), s.vrfs[j]? = some u → u.busy = true →
    p < u.lcount.toNat → a = u.lbase.toNat + p * u.lstride.toNat → a < s.plat.memWords →
      step { s with pending := .sampleRead a :: rest } = .refused .hostFrameAccessWhileBusy ∧
        step { s with pending := .sampleWrite a w :: rest } = .refused .hostFrameAccessWhileBusy

/-- R41, R44, R52: at an existing address outside the running frames the host's write of a sample completes, a read of
that address then returns it, and every other sample reads as before. -/
def Obligations.HostSampleWriteReadsBack : Prop :=
  ∀ (s : State) (a : Nat) (w : Sample) (rest : List HostOp), s.mem.wf → a < s.plat.memWords →
    (∀ u ∈ s.vrfs, u.busy = true → ∀ p < u.lcount.toNat, a ≠ u.lbase.toNat + p * u.lstride.toNat) →
    s.pending = .sampleWrite a w :: .sampleRead a :: rest →
      ∃ m : Memory,
        runSteps 2 s = .next { s with pending := rest, mem := m, seen := .sample a w :: s.seen } ∧
        memGet m a = w ∧ ∀ b, b ≠ a → memGet m b = memGet s.mem b

/-- R133: a reset of one instance, at any time, sets each of its elements to its value of R39 (`ACC` is not
constrained), abandons a running `APPLY`, and touches neither sample memory nor another instance; a platform reset does
so to all (R132). -/
def Obligations.ResetClearsTheInstance : Prop :=
  ∀ (s : State) (j : Nat) (u : Vrf) (rest : List HostOp), s.vrfs[j]? = some u →
    ∃ c : Word,
      let r : Vrf :=
        ⟨0, 0, 0, 0, 0, 0, 0, 0, 0, 0, 0, 0, 0, false, false, false, .noFault, c, 0, 0, 0, 0, 0⟩
      step { s with pending := .resetOne j :: rest } = .next { s with pending := rest, vrfs := s.vrfs.set j r } ∧
        step { s with pending := .resetAll :: rest } = .next { s with
          pending := rest
          vrfs := List.replicate s.vrfs.length r }

/-- R39, R134: after reset every instance is idle, unfaulted and unprepared with every register 0, and the machine
does nothing until something outside acts on it. That nothing is pending at reset is the model's choice (log
entry 2). -/
def Obligations.ResetStateIsQuiet : Prop :=
  (∀ u ∈ State.reset.vrfs, ∀ off < 0x100, readOffset u off = 0#32) ∧
    (∀ u ∈ State.reset.vrfs, u.w1 = 0#16 ∧ u.w2 = 0#16 ∧ u.lbase = 0#32 ∧ u.lcount = 0#32 ∧ u.lstride = 0#32) ∧
      step State.reset = .next State.reset

/-- R130, R134: with nothing pending and no instance busy the machine holds its state. -/
def Obligations.IdleMachineHoldsItsState : Prop :=
  ∀ s : State, s.ended → step s = .next s

/-- R68: a wait ends at the poll that reads `BUSY` = 0, the host seeing that `STATUS`; while the instance is busy it goes on,
an instance step of some busy instance going by. (What goes by between two polls is the model's reading, notes/assumptions/11.md.) -/
def Obligations.WaitPollsStatus : Prop :=
  ∀ (s : State) (j : Nat) (u : Vrf) (rest : List HostOp), s.Inv → s.pending = .wait j :: rest →
    s.vrfs[j]? = some u →
      (u.busy = false →
        step s = .next { s with pending := rest, sel := j, seen := .reg j 0x04 (readValue u 0x04) :: s.seen }) ∧
      (u.busy = true →
        ∃ t, step s = .next t ∧ t.pending = s.pending ∧ t.seen = s.seen ∧
          ∃ i v, s.vrfs[i]? = some v ∧ v.busy = true ∧ ∃ t', instanceStep i s = .next t' ∧
            t.vrfs = t'.vrfs ∧ t.mem = t'.mem)

/-! ### Invariants and whole-machine rules -/

/-- The invariant holds at reset (R39, R7). It does not rest on what an unlisted sample reads as. -/
def Obligations.InvariantAtReset : Prop :=
  State.reset.Inv

/-- Every step keeps the invariant: sample memory stays canonical and inside `MEM_WORDS`, the prepared coefficients keep
their ranges (R27 to R29), `FCODE` is 0 exactly while `FAULT` = 0 (R17), `IDX` never exceeds `LCOUNT` and equals it
outside an `APPLY` (R35), a running `APPLY` has an accepted frame, kept registers and the setup of its coefficients
(R102, R115), and running frames are disjoint (R49). -/
def Obligations.StepKeepsInvariant : Prop :=
  ∀ s t : State, s.Inv → step s = .next t → t.Inv

/-- R42, R117: in a state that meets the invariant no instance step stops: sample steps and commits never fault, and no
access to a sample that does not exist is made. That a step of an instance that is idle or does not exist answers a next
state too is the model's choice (log entry 16). -/
def Obligations.InstanceStepsNeverStop : Prop :=
  ∀ (s : State) (j : Nat), s.Inv → ∃ t, instanceStep j s = .next t

/-- R121, R141: once an instance is faulted, no step but a reset of it clears `FAULT` or changes `FCODE`, and none
changes a register the host can write or the prepared set, but the commit of its own running `APPLY`, which writes the
working delay line to `Z1`, `Z2`. -/
def Obligations.FaultIsSticky : Prop :=
  ∀ (s t : State) (j : Nat) (u : Vrf), step s = .next t → s.vrfs[j]? = some u → u.fault = true →
    nextResets s j = false →
      ∃ v, t.vrfs[j]? = some v ∧ v.fault = true ∧ v.fcode = u.fcode ∧ v.k = u.k ∧ v.b1 = u.b1 ∧ v.b2 = u.b2 ∧
        v.xy = u.xy ∧ v.fbase = u.fbase ∧ v.fcount = u.fcount ∧ v.fstride = u.fstride ∧ v.kh = u.kh ∧
        v.nb1 = u.nb1 ∧ v.nb2 = u.nb2 ∧ v.prep = u.prep ∧
        (v.z1 = u.z1 ∧ v.z2 = u.z2 ∨
          u.busy = true ∧ u.lcount.toNat ≤ u.idx.toNat ∧ v.busy = false ∧ v.z1 = u.w1 ∧ v.z2 = u.w2)

/-- R17: no step but a reset of the instance clears `PREP`, and none but a write of the word of `SETUP` or `APPLY` to
its `CMD` sets it. -/
def Obligations.PrepChangesOnly : Prop :=
  ∀ (s t : State) (j : Nat) (u v : Vrf), step s = .next t → s.vrfs[j]? = some u → t.vrfs[j]? = some v →
    v.prep ≠ u.prep →
      (u.prep = true ∧ nextResets s j = true) ∨
        (u.prep = false ∧ (nextWrite s = some (j, 0, 4, 0x00000001#32) ∨ nextWrite s = some (j, 0, 4, 0x00000003#32)))

/-- R21, R22, R136: `Z1` and `Z2` of an instance change in a step only by a host write of that register, by `STEP`, by the commit
of its `APPLY`, or by a reset of it. -/
def Obligations.DelayLineChangesOnly : Prop :=
  ∀ (s t : State) (j : Nat) (u v : Vrf), step s = .next t → s.vrfs[j]? = some u → t.vrfs[j]? = some v →
    (v.z1 ≠ u.z1 →
      nextResets s j = true ∨ (∃ d, nextWrite s = some (j, 0x14, 4, d) ∧ v.z1 = BitVec.ofNat 16 d.toNat) ∨
        nextWrite s = some (j, 0, 4, 0x00000002#32) ∨
          (u.busy = true ∧ u.lcount.toNat ≤ u.idx.toNat ∧ v.busy = false ∧ v.z1 = u.w1)) ∧
      (v.z2 ≠ u.z2 →
        nextResets s j = true ∨ (∃ d, nextWrite s = some (j, 0x18, 4, d) ∧ v.z2 = BitVec.ofNat 16 d.toNat) ∨
          nextWrite s = some (j, 0, 4, 0x00000002#32) ∨
            (u.busy = true ∧ u.lcount.toNat ≤ u.idx.toNat ∧ v.busy = false ∧ v.z2 = u.w2))

/-- R45, R112: a sample changes in a step only by a host write of that sample, which leaves the written value there, or
by the sample step of a running `APPLY` at its address `LBASE + IDX * LSTRIDE`, which advances that instance's `IDX` by 1
and leaves there the output, now `W1` (R83). The values are stated for a sample memory in the model's canonical form,
which every step keeps. -/
def Obligations.SampleMemoryChangesOnly : Prop :=
  ∀ (s t : State) (a : Nat), step s = .next t → memGet t.mem a ≠ memGet s.mem a →
    (∃ w, s.pending.head? = some (.sampleWrite a w) ∧ (s.mem.wf → memGet t.mem a = w)) ∨
      ∃ (j : Nat) (u v : Vrf), s.vrfs[j]? = some u ∧ u.busy = true ∧ u.idx.toNat < u.lcount.toNat ∧
        a = u.lbase.toNat + u.idx.toNat * u.lstride.toNat ∧ t.vrfs[j]? = some v ∧ v.idx = u.idx + 1#32 ∧
        v.w2 = u.w1 ∧ (s.mem.wf → memGet t.mem a = v.w1)

/-- R40, R126: no step changes two instances, but a platform reset, which resets all; and no step changes the number of
instances or a parameter of the platform (R7). -/
def Obligations.StepChangesOneInstance : Prop :=
  ∀ s t : State, step s = .next t →
    t.plat = s.plat ∧ t.vrfs.length = s.vrfs.length ∧
      ((∃ j : Nat, ∀ i, i ≠ j → t.vrfs[i]? = s.vrfs[i]?) ∨ ∀ i, nextResets s i = true)
end

