-- ==== Sys2Proof/Laws/State.lean ====
section
/-! SUPPORT. One lemma per field per update, so that no later proof unfolds a record update: the updates of the
machine (`State.setVrf` and its kin) and of an instance (`prepare` and its kin). -/

namespace Sys2Proof.Machine

variable (s : State) (u : Vrf)

/-! ### `State.setVrf` -/

@[simp] theorem State.setVrf_vrfs (j : Nat) (v : Vrf) : (s.setVrf j v).vrfs = s.vrfs.set j v := rfl
@[simp] theorem State.setVrf_mem (j : Nat) (v : Vrf) : (s.setVrf j v).mem = s.mem := rfl
@[simp] theorem State.setVrf_plat (j : Nat) (v : Vrf) : (s.setVrf j v).plat = s.plat := rfl
@[simp] theorem State.setVrf_sel (j : Nat) (v : Vrf) : (s.setVrf j v).sel = s.sel := rfl
@[simp] theorem State.setVrf_pending (j : Nat) (v : Vrf) : (s.setVrf j v).pending = s.pending := rfl
@[simp] theorem State.setVrf_seen (j : Nat) (v : Vrf) : (s.setVrf j v).seen = s.seen := rfl
@[simp] theorem State.setVrf_choices (j : Nat) (v : Vrf) : (s.setVrf j v).choices = s.choices := rfl

/-! ### `State.setMem` -/

@[simp] theorem State.setMem_vrfs (m : Memory) : (s.setMem m).vrfs = s.vrfs := rfl
@[simp] theorem State.setMem_mem (m : Memory) : (s.setMem m).mem = m := rfl
@[simp] theorem State.setMem_plat (m : Memory) : (s.setMem m).plat = s.plat := rfl
@[simp] theorem State.setMem_sel (m : Memory) : (s.setMem m).sel = s.sel := rfl
@[simp] theorem State.setMem_pending (m : Memory) : (s.setMem m).pending = s.pending := rfl
@[simp] theorem State.setMem_seen (m : Memory) : (s.setMem m).seen = s.seen := rfl
@[simp] theorem State.setMem_choices (m : Memory) : (s.setMem m).choices = s.choices := rfl

/-! ### `State.setPending` -/

@[simp] theorem State.setPending_vrfs (ops : List HostOp) : (s.setPending ops).vrfs = s.vrfs := rfl
@[simp] theorem State.setPending_mem (ops : List HostOp) : (s.setPending ops).mem = s.mem := rfl
@[simp] theorem State.setPending_plat (ops : List HostOp) : (s.setPending ops).plat = s.plat := rfl
@[simp] theorem State.setPending_sel (ops : List HostOp) : (s.setPending ops).sel = s.sel := rfl
@[simp] theorem State.setPending_pending (ops : List HostOp) : (s.setPending ops).pending = ops := rfl
@[simp] theorem State.setPending_seen (ops : List HostOp) : (s.setPending ops).seen = s.seen := rfl
@[simp] theorem State.setPending_choices (ops : List HostOp) : (s.setPending ops).choices = s.choices := rfl

/-! ### `State.select` -/

@[simp] theorem State.select_vrfs (j : Nat) : (s.select j).vrfs = s.vrfs := rfl
@[simp] theorem State.select_mem (j : Nat) : (s.select j).mem = s.mem := rfl
@[simp] theorem State.select_plat (j : Nat) : (s.select j).plat = s.plat := rfl
@[simp] theorem State.select_sel (j : Nat) : (s.select j).sel = j := rfl
@[simp] theorem State.select_pending (j : Nat) : (s.select j).pending = s.pending := rfl
@[simp] theorem State.select_seen (j : Nat) : (s.select j).seen = s.seen := rfl
@[simp] theorem State.select_choices (j : Nat) : (s.select j).choices = s.choices := rfl

/-! ### `State.observe` -/

@[simp] theorem State.observe_vrfs (x : Seen) : (s.observe x).vrfs = s.vrfs := rfl
@[simp] theorem State.observe_mem (x : Seen) : (s.observe x).mem = s.mem := rfl
@[simp] theorem State.observe_plat (x : Seen) : (s.observe x).plat = s.plat := rfl
@[simp] theorem State.observe_sel (x : Seen) : (s.observe x).sel = s.sel := rfl
@[simp] theorem State.observe_pending (x : Seen) : (s.observe x).pending = s.pending := rfl
@[simp] theorem State.observe_seen (x : Seen) : (s.observe x).seen = x :: s.seen := rfl
@[simp] theorem State.observe_choices (x : Seen) : (s.observe x).choices = s.choices := rfl

/-! ### `State.countChoice` -/

@[simp] theorem State.countChoice_vrfs : (s.countChoice).vrfs = s.vrfs := rfl
@[simp] theorem State.countChoice_mem : (s.countChoice).mem = s.mem := rfl
@[simp] theorem State.countChoice_plat : (s.countChoice).plat = s.plat := rfl
@[simp] theorem State.countChoice_sel : (s.countChoice).sel = s.sel := rfl
@[simp] theorem State.countChoice_pending : (s.countChoice).pending = s.pending := rfl
@[simp] theorem State.countChoice_seen : (s.countChoice).seen = s.seen := rfl
@[simp] theorem State.countChoice_choices : (s.countChoice).choices = s.choices + 1 := rfl

/-! ### `prepare` -/

@[simp] theorem prepare_k : (prepare u).k = u.k := rfl
@[simp] theorem prepare_b1 : (prepare u).b1 = u.b1 := rfl
@[simp] theorem prepare_b2 : (prepare u).b2 = u.b2 := rfl
@[simp] theorem prepare_z1 : (prepare u).z1 = u.z1 := rfl
@[simp] theorem prepare_z2 : (prepare u).z2 = u.z2 := rfl
@[simp] theorem prepare_xy : (prepare u).xy = u.xy := rfl
@[simp] theorem prepare_fbase : (prepare u).fbase = u.fbase := rfl
@[simp] theorem prepare_fcount : (prepare u).fcount = u.fcount := rfl
@[simp] theorem prepare_fstride : (prepare u).fstride = u.fstride := rfl
@[simp] theorem prepare_kh : (prepare u).kh = u32 (preparedGain u.k.toInt) := rfl
@[simp] theorem prepare_nb1 : (prepare u).nb1 = u32 (preparedFirst u.b1.toInt) := rfl
@[simp] theorem prepare_nb2 : (prepare u).nb2 = u32 (preparedSecond u.b2.toInt) := rfl
@[simp] theorem prepare_idx : (prepare u).idx = u.idx := rfl
@[simp] theorem prepare_busy : (prepare u).busy = u.busy := rfl
@[simp] theorem prepare_fault : (prepare u).fault = u.fault := rfl
@[simp] theorem prepare_prep : (prepare u).prep = true := rfl
@[simp] theorem prepare_fcode : (prepare u).fcode = u.fcode := rfl
@[simp] theorem prepare_acc : (prepare u).acc = u.acc := rfl
@[simp] theorem prepare_w1 : (prepare u).w1 = u.w1 := rfl
@[simp] theorem prepare_w2 : (prepare u).w2 = u.w2 := rfl
@[simp] theorem prepare_lbase : (prepare u).lbase = u.lbase := rfl
@[simp] theorem prepare_lcount : (prepare u).lcount = u.lcount := rfl
@[simp] theorem prepare_lstride : (prepare u).lstride = u.lstride := rfl

/-! ### `stepLatch` -/

@[simp] theorem stepLatch_k : (stepLatch u).k = u.k := rfl
@[simp] theorem stepLatch_b1 : (stepLatch u).b1 = u.b1 := rfl
@[simp] theorem stepLatch_b2 : (stepLatch u).b2 = u.b2 := rfl
@[simp] theorem stepLatch_z1 : (stepLatch u).z1 = stepOutput (preparedOf u) (committedDelay u) u.xy := rfl
@[simp] theorem stepLatch_z2 : (stepLatch u).z2 = u.z1 := rfl
@[simp] theorem stepLatch_xy : (stepLatch u).xy = stepOutput (preparedOf u) (committedDelay u) u.xy := rfl
@[simp] theorem stepLatch_fbase : (stepLatch u).fbase = u.fbase := rfl
@[simp] theorem stepLatch_fcount : (stepLatch u).fcount = u.fcount := rfl
@[simp] theorem stepLatch_fstride : (stepLatch u).fstride = u.fstride := rfl
@[simp] theorem stepLatch_kh : (stepLatch u).kh = u.kh := rfl
@[simp] theorem stepLatch_nb1 : (stepLatch u).nb1 = u.nb1 := rfl
@[simp] theorem stepLatch_nb2 : (stepLatch u).nb2 = u.nb2 := rfl
@[simp] theorem stepLatch_idx : (stepLatch u).idx = u.idx := rfl
@[simp] theorem stepLatch_busy : (stepLatch u).busy = u.busy := rfl
@[simp] theorem stepLatch_fault : (stepLatch u).fault = u.fault := rfl
@[simp] theorem stepLatch_prep : (stepLatch u).prep = u.prep := rfl
@[simp] theorem stepLatch_fcode : (stepLatch u).fcode = u.fcode := rfl
@[simp] theorem stepLatch_acc : (stepLatch u).acc = accumulate (preparedOf u) (committedDelay u) u.xy := rfl
@[simp] theorem stepLatch_w1 : (stepLatch u).w1 = u.w1 := rfl
@[simp] theorem stepLatch_w2 : (stepLatch u).w2 = u.w2 := rfl
@[simp] theorem stepLatch_lbase : (stepLatch u).lbase = u.lbase := rfl
@[simp] theorem stepLatch_lcount : (stepLatch u).lcount = u.lcount := rfl
@[simp] theorem stepLatch_lstride : (stepLatch u).lstride = u.lstride := rfl

/-! ### `startApply` -/

@[simp] theorem startApply_k : (startApply u).k = u.k := rfl
@[simp] theorem startApply_b1 : (startApply u).b1 = u.b1 := rfl
@[simp] theorem startApply_b2 : (startApply u).b2 = u.b2 := rfl
@[simp] theorem startApply_z1 : (startApply u).z1 = u.z1 := rfl
@[simp] theorem startApply_z2 : (startApply u).z2 = u.z2 := rfl
@[simp] theorem startApply_xy : (startApply u).xy = u.xy := rfl
@[simp] theorem startApply_fbase : (startApply u).fbase = u.fbase := rfl
@[simp] theorem startApply_fcount : (startApply u).fcount = u.fcount := rfl
@[simp] theorem startApply_fstride : (startApply u).fstride = u.fstride := rfl
@[simp] theorem startApply_kh : (startApply u).kh = u32 (preparedGain u.k.toInt) := rfl
@[simp] theorem startApply_nb1 : (startApply u).nb1 = u32 (preparedFirst u.b1.toInt) := rfl
@[simp] theorem startApply_nb2 : (startApply u).nb2 = u32 (preparedSecond u.b2.toInt) := rfl
@[simp] theorem startApply_idx : (startApply u).idx = 0#32 := rfl
@[simp] theorem startApply_busy : (startApply u).busy = true := rfl
@[simp] theorem startApply_fault : (startApply u).fault = u.fault := rfl
@[simp] theorem startApply_prep : (startApply u).prep = true := rfl
@[simp] theorem startApply_fcode : (startApply u).fcode = u.fcode := rfl
@[simp] theorem startApply_acc : (startApply u).acc = u.acc := rfl
@[simp] theorem startApply_w1 : (startApply u).w1 = u.z1 := rfl
@[simp] theorem startApply_w2 : (startApply u).w2 = u.z2 := rfl
@[simp] theorem startApply_lbase : (startApply u).lbase = u.fbase := rfl
@[simp] theorem startApply_lcount : (startApply u).lcount = u.fcount := rfl
@[simp] theorem startApply_lstride : (startApply u).lstride = u.fstride := rfl

/-! ### `stepWorking` -/

@[simp] theorem stepWorking_k (x : Sample) : (stepWorking u x).k = u.k := rfl
@[simp] theorem stepWorking_b1 (x : Sample) : (stepWorking u x).b1 = u.b1 := rfl
@[simp] theorem stepWorking_b2 (x : Sample) : (stepWorking u x).b2 = u.b2 := rfl
@[simp] theorem stepWorking_z1 (x : Sample) : (stepWorking u x).z1 = u.z1 := rfl
@[simp] theorem stepWorking_z2 (x : Sample) : (stepWorking u x).z2 = u.z2 := rfl
@[simp] theorem stepWorking_xy (x : Sample) : (stepWorking u x).xy = u.xy := rfl
@[simp] theorem stepWorking_fbase (x : Sample) : (stepWorking u x).fbase = u.fbase := rfl
@[simp] theorem stepWorking_fcount (x : Sample) : (stepWorking u x).fcount = u.fcount := rfl
@[simp] theorem stepWorking_fstride (x : Sample) : (stepWorking u x).fstride = u.fstride := rfl
@[simp] theorem stepWorking_kh (x : Sample) : (stepWorking u x).kh = u.kh := rfl
@[simp] theorem stepWorking_nb1 (x : Sample) : (stepWorking u x).nb1 = u.nb1 := rfl
@[simp] theorem stepWorking_nb2 (x : Sample) : (stepWorking u x).nb2 = u.nb2 := rfl
@[simp] theorem stepWorking_idx (x : Sample) : (stepWorking u x).idx = u.idx + 1#32 := rfl
@[simp] theorem stepWorking_busy (x : Sample) : (stepWorking u x).busy = u.busy := rfl
@[simp] theorem stepWorking_fault (x : Sample) : (stepWorking u x).fault = u.fault := rfl
@[simp] theorem stepWorking_prep (x : Sample) : (stepWorking u x).prep = u.prep := rfl
@[simp] theorem stepWorking_fcode (x : Sample) : (stepWorking u x).fcode = u.fcode := rfl
@[simp] theorem stepWorking_acc (x : Sample) : (stepWorking u x).acc = accumulate (preparedOf u) (workingDelay u) x :=
    rfl
@[simp] theorem stepWorking_w1 (x : Sample) : (stepWorking u x).w1 = stepOutput (preparedOf u) (workingDelay u) x :=
    rfl
@[simp] theorem stepWorking_w2 (x : Sample) : (stepWorking u x).w2 = u.w1 := rfl
@[simp] theorem stepWorking_lbase (x : Sample) : (stepWorking u x).lbase = u.lbase := rfl
@[simp] theorem stepWorking_lcount (x : Sample) : (stepWorking u x).lcount = u.lcount := rfl
@[simp] theorem stepWorking_lstride (x : Sample) : (stepWorking u x).lstride = u.lstride := rfl

/-! ### `commitApply` -/

@[simp] theorem commitApply_k : (commitApply u).k = u.k := rfl
@[simp] theorem commitApply_b1 : (commitApply u).b1 = u.b1 := rfl
@[simp] theorem commitApply_b2 : (commitApply u).b2 = u.b2 := rfl
@[simp] theorem commitApply_z1 : (commitApply u).z1 = u.w1 := rfl
@[simp] theorem commitApply_z2 : (commitApply u).z2 = u.w2 := rfl
@[simp] theorem commitApply_xy : (commitApply u).xy = u.xy := rfl
@[simp] theorem commitApply_fbase : (commitApply u).fbase = u.fbase := rfl
@[simp] theorem commitApply_fcount : (commitApply u).fcount = u.fcount := rfl
@[simp] theorem commitApply_fstride : (commitApply u).fstride = u.fstride := rfl
@[simp] theorem commitApply_kh : (commitApply u).kh = u.kh := rfl
@[simp] theorem commitApply_nb1 : (commitApply u).nb1 = u.nb1 := rfl
@[simp] theorem commitApply_nb2 : (commitApply u).nb2 = u.nb2 := rfl
@[simp] theorem commitApply_idx : (commitApply u).idx = u.idx := rfl
@[simp] theorem commitApply_busy : (commitApply u).busy = false := rfl
@[simp] theorem commitApply_fault : (commitApply u).fault = u.fault := rfl
@[simp] theorem commitApply_prep : (commitApply u).prep = u.prep := rfl
@[simp] theorem commitApply_fcode : (commitApply u).fcode = u.fcode := rfl
@[simp] theorem commitApply_acc : (commitApply u).acc = u.acc := rfl
@[simp] theorem commitApply_w1 : (commitApply u).w1 = u.w1 := rfl
@[simp] theorem commitApply_w2 : (commitApply u).w2 = u.w2 := rfl
@[simp] theorem commitApply_lbase : (commitApply u).lbase = u.lbase := rfl
@[simp] theorem commitApply_lcount : (commitApply u).lcount = u.lcount := rfl
@[simp] theorem commitApply_lstride : (commitApply u).lstride = u.lstride := rfl

/-! ### `raiseFault` -/

@[simp] theorem raiseFault_fault (c : FCode) : (raiseFault c u).fault = true := by
  unfold raiseFault; split <;> simp_all

theorem raiseFault_of_clear (c : FCode) (h : u.fault = false) :
    raiseFault c u = { u with fault := true, fcode := c } := by simp [raiseFault, h]

theorem raiseFault_of_faulted (c : FCode) (h : u.fault = true) : raiseFault c u = u := by simp [raiseFault, h]

@[simp] theorem raiseFault_k (c : FCode) : (raiseFault c u).k = u.k := by unfold raiseFault; split <;> rfl
@[simp] theorem raiseFault_b1 (c : FCode) : (raiseFault c u).b1 = u.b1 := by unfold raiseFault; split <;> rfl
@[simp] theorem raiseFault_b2 (c : FCode) : (raiseFault c u).b2 = u.b2 := by unfold raiseFault; split <;> rfl
@[simp] theorem raiseFault_z1 (c : FCode) : (raiseFault c u).z1 = u.z1 := by unfold raiseFault; split <;> rfl
@[simp] theorem raiseFault_z2 (c : FCode) : (raiseFault c u).z2 = u.z2 := by unfold raiseFault; split <;> rfl
@[simp] theorem raiseFault_xy (c : FCode) : (raiseFault c u).xy = u.xy := by unfold raiseFault; split <;> rfl
@[simp] theorem raiseFault_fbase (c : FCode) : (raiseFault c u).fbase = u.fbase := by unfold raiseFault; split <;> rfl
@[simp] theorem raiseFault_fcount (c : FCode) : (raiseFault c u).fcount = u.fcount := by unfold raiseFault; split <;> rfl
@[simp] theorem raiseFault_fstride (c : FCode) : (raiseFault c u).fstride = u.fstride := by unfold raiseFault; split <;> rfl
@[simp] theorem raiseFault_kh (c : FCode) : (raiseFault c u).kh = u.kh := by unfold raiseFault; split <;> rfl
@[simp] theorem raiseFault_nb1 (c : FCode) : (raiseFault c u).nb1 = u.nb1 := by unfold raiseFault; split <;> rfl
@[simp] theorem raiseFault_nb2 (c : FCode) : (raiseFault c u).nb2 = u.nb2 := by unfold raiseFault; split <;> rfl
@[simp] theorem raiseFault_idx (c : FCode) : (raiseFault c u).idx = u.idx := by unfold raiseFault; split <;> rfl
@[simp] theorem raiseFault_busy (c : FCode) : (raiseFault c u).busy = u.busy := by unfold raiseFault; split <;> rfl
@[simp] theorem raiseFault_prep (c : FCode) : (raiseFault c u).prep = u.prep := by unfold raiseFault; split <;> rfl
@[simp] theorem raiseFault_acc (c : FCode) : (raiseFault c u).acc = u.acc := by unfold raiseFault; split <;> rfl
@[simp] theorem raiseFault_w1 (c : FCode) : (raiseFault c u).w1 = u.w1 := by unfold raiseFault; split <;> rfl
@[simp] theorem raiseFault_w2 (c : FCode) : (raiseFault c u).w2 = u.w2 := by unfold raiseFault; split <;> rfl
@[simp] theorem raiseFault_lbase (c : FCode) : (raiseFault c u).lbase = u.lbase := by unfold raiseFault; split <;> rfl
@[simp] theorem raiseFault_lcount (c : FCode) : (raiseFault c u).lcount = u.lcount := by unfold raiseFault; split <;> rfl
@[simp] theorem raiseFault_lstride (c : FCode) : (raiseFault c u).lstride = u.lstride := by unfold raiseFault; split <;> rfl

end Sys2Proof.Machine
end

