-- ==== Sys2Proof/Laws/Frames.lean ====
section
/-! SUPPORT. The laws of frames (R42, R45, R46, R49): what the decision procedures for membership and overlap say, and
what the checks of R102 give. -/

namespace Sys2Proof.Machine

/-- R45: `frameContains` decides whether an address is one of `a_0 .. a_(count-1)`. -/
theorem frameContains_iff (f : Frame) (a : Nat) :
    frameContains f a = true ↔ ∃ i < f.count, a = frameAddr f i := by
  unfold frameContains frameAddr
  by_cases hs : f.stride = 0
  · simp only [hs, if_true, Nat.mul_zero, Nat.add_zero, Bool.and_eq_true, decide_eq_true_eq, beq_iff_eq]
    exact ⟨fun h => ⟨0, by omega, h.2⟩, fun ⟨i, hi, e⟩ => ⟨by omega, e⟩⟩
  · simp only [hs, if_false, Bool.and_eq_true, decide_eq_true_eq, beq_iff_eq]
    constructor
    · rintro ⟨-, ⟨h1, h2⟩, h3⟩
      refine ⟨_, h3, ?_⟩
      have := Nat.div_mul_cancel (Nat.dvd_of_mod_eq_zero h2)
      omega
    · rintro ⟨i, hi, rfl⟩
      have e : f.base + i * f.stride - f.base = i * f.stride := by omega
      rw [e, Nat.mul_mod_left, Nat.mul_div_cancel _ (by omega)]
      exact ⟨by omega, ⟨by omega, rfl⟩, hi⟩

/-- R49: `framesOverlap` decides whether two frames share an address. -/
theorem framesOverlap_iff (f g : Frame) :
    framesOverlap f g = true ↔ ∃ p < f.count, ∃ q < g.count, frameAddr f p = frameAddr g q := by
  simp [framesOverlap, List.any_eq_true, frameContains_iff]

theorem framesOverlap_false_iff (f g : Frame) :
    framesOverlap f g = false ↔ ∀ p < f.count, ∀ q < g.count, frameAddr f p ≠ frameAddr g q := by
  rw [Bool.eq_false_iff, Ne, framesOverlap_iff]
  simp only [not_exists, not_and, ne_eq]

theorem framesOverlap_comm (f g : Frame) : framesOverlap f g = framesOverlap g f := by
  rw [Bool.eq_iff_iff, framesOverlap_iff, framesOverlap_iff]
  exact ⟨fun ⟨p, hp, q, hq, e⟩ => ⟨q, hq, p, hp, e.symm⟩, fun ⟨p, hp, q, hq, e⟩ => ⟨q, hq, p, hp, e.symm⟩⟩

/-- R102: a frame passes the checks exactly when none of the three conditions holds. -/
theorem applyCheck_none_iff (memWords : Nat) (f : Frame) :
    applyCheck memWords f = none ↔
      (1 ≤ f.count → f.base ≠ 0) ∧ (2 ≤ f.count → f.stride ≠ 0) ∧
        (1 ≤ f.count → f.base + (f.count - 1) * f.stride < memWords) := by
  unfold applyCheck
  split
  · simp; omega
  · split
    · simp; omega
    · split
      · simp; omega
      · simp; omega

/-- R42, R102: every address of an accepted frame exists. -/
theorem frameAddr_lt {memWords : Nat} {f : Frame} (h : applyCheck memWords f = none) {i : Nat}
    (hi : i < f.count) : frameAddr f i < memWords := by
  have := ((applyCheck_none_iff memWords f).1 h).2.2 (by omega)
  have : i * f.stride ≤ (f.count - 1) * f.stride := Nat.mul_le_mul_right _ (by omega)
  unfold frameAddr
  omega

/-- R46: the addresses of an accepted frame are pairwise distinct. -/
theorem frameAddr_inj {memWords : Nat} {f : Frame} (h : applyCheck memWords f = none) {i j : Nat}
    (hi : i < f.count) (hj : j < f.count) (e : frameAddr f i = frameAddr f j) : i = j := by
  rcases Nat.lt_or_ge 1 f.count with h2 | h1
  · have := ((applyCheck_none_iff memWords f).1 h).2.1 h2
    unfold frameAddr at e
    exact Nat.eq_of_mul_eq_mul_right (Nat.pos_of_ne_zero this) (by omega)
  · omega

/-- R48: whether a sample address belongs to a running frame. -/
theorem inRunningFrame_iff (s : State) (a : Nat) :
    inRunningFrame s a = true ↔
      ∃ v ∈ s.vrfs, v.busy = true ∧ ∃ i < v.lcount.toNat, a = frameAddr (latchedFrame v) i := by
  simp [inRunningFrame, List.any_eq_true, frameContains_iff, latchedFrame]

/-- R49: no other running `APPLY` shares an address with `f`. -/
theorem overlapsRunning_false_iff (s : State) (j : Nat) (f : Frame) :
    overlapsRunning s j f = false ↔
      ∀ i v, i ≠ j → s.vrfs[i]? = some v → v.busy = true → framesOverlap f (latchedFrame v) = false := by
  by_cases hc : f.count = 0
  · have : ∀ g, framesOverlap f g = false := fun g => by simp [framesOverlap, hc]
    simp [overlapsRunning, hc, this]
  · simp only [overlapsRunning, hc, ne_eq, not_false_eq_true, decide_true, Bool.true_and, List.any_eq_false,
      List.mem_range, Bool.and_eq_true, decide_eq_true_eq, not_and]
    constructor
    · intro h i v hi hv hb
      have hl : i < s.vrfs.length := (List.getElem?_eq_some_iff.1 hv).1
      have := h i hl hi
      simpa [hv, hb] using this
    · intro h i _ hi
      split
      · rename_i v hv
        by_cases hb : v.busy = true
        · simpa [hb] using h i v hi hv hb
        · simp [hb]
      · simp

end Sys2Proof.Machine
end

