-- ==== Sys2Proof/Laws/Commands.lean ====
section
/-! SUPPORT. What a gated host write and each command can do (R97 to R103), said once. -/

namespace Sys2Proof.Machine

variable {s : State} {u : Vrf}

/-- R97: a write to a faulted instance is ignored. -/
theorem gateWrite_faulted (act : Vrf → Result) (h : s.vrfs[s.sel]? = some u) (hf : u.fault = true) :
    gateWrite act s = .next s := by simp [gateWrite, h, hf]

/-- R97: a write to a busy instance raises `BUSY_WRITE`. -/
theorem gateWrite_busy (act : Vrf → Result) (h : s.vrfs[s.sel]? = some u) (hf : u.fault = false)
    (hb : u.busy = true) : gateWrite act s = takeFault .busyWrite u s := by simp [gateWrite, h, hf, hb]

/-- R97: a write to a ready instance acts. -/
theorem gateWrite_ready (act : Vrf → Result) (h : s.vrfs[s.sel]? = some u) (hb : u.busy = false)
    (hf : u.fault = false) : gateWrite act s = act u := by simp [gateWrite, h, hf, hb]

/-- If a gated write answers a next state, the selected instance exists and one of the three cases of R119 holds. -/
theorem gateWrite_next {act : Vrf → Result} {t : State} (h : gateWrite act s = .next t) :
    ∃ u, s.vrfs[s.sel]? = some u ∧
      ((u.fault = true ∧ t = s) ∨
        (u.fault = false ∧ u.busy = true ∧ t = s.setVrf s.sel (raiseFault .busyWrite u)) ∨
          (u.fault = false ∧ u.busy = false ∧ act u = .next t)) := by
  unfold gateWrite at h
  split at h
  · exact absurd h (by simp)
  · rename_i u hu
    refine ⟨u, hu, ?_⟩
    split at h
    · exact .inl ⟨‹_›, by injection h with h; exact h.symm⟩
    · split at h
      · refine .inr (.inl ⟨by simpa using ‹¬u.fault = true›, ‹_›, ?_⟩)
        simp only [takeFault] at h
        injection h with h; exact h.symm
      · exact .inr (.inr ⟨by simpa using ‹¬u.fault = true›, by simpa using ‹¬u.busy = true›, h⟩)

theorem set_same {l : List Vrf} {j : Nat} (h : l[j]? = some u) : l.set j u = l := by
  obtain ⟨hl, rfl⟩ := List.getElem?_eq_some_iff.1 h
  exact List.set_getElem_self hl

/-- Replacing an instance by itself changes nothing. -/
theorem setVrf_same {j : Nat} (h : s.vrfs[j]? = some u) : s.setVrf j u = s := by
  simp [State.setVrf, set_same h]

/-- What a command makes of the selected instance, from `u` to `v`: nothing (`NOP`, or a faulted instance ignores it),
a fault, or the command's own effect on a ready instance. -/
inductive CommandEffect (s : State) (u : Vrf) : Instr → Vrf → Prop where
  | same (i : Instr) : CommandEffect s u i u
  | fault (i : Instr) (c : FCode) (hf : u.fault = false) (hc : c ≠ .noFault) : CommandEffect s u i (raiseFault c u)
  | setup (hr : u.ready) : CommandEffect s u .setup (prepare u)
  | step (hr : u.ready) (hp : u.prep = true) : CommandEffect s u .step (stepLatch u)
  | apply (hr : u.ready) (hc : applyCheck s.plat.memWords (hostFrame u) = none)
      (ho : overlapsRunning s s.sel (hostFrame u) = false) : CommandEffect s u .apply (startApply u)

/-- The checks of R102 never report `NONE`. -/
theorem applyCheck_ne_noFault (memWords : Nat) (f : Frame) : applyCheck memWords f ≠ some .noFault := by
  unfold applyCheck
  split
  · simp
  · split
    · simp
    · split <;> simp

/-- Everything a command can do: if it answers a next state, it replaced the selected instance by one of the effects
above and changed nothing else. -/
theorem exec_next {i : Instr} {t : State} (h : exec i s = .next t) :
    ∃ u v, s.vrfs[s.sel]? = some u ∧ t = s.setVrf s.sel v ∧ CommandEffect s u i v := by
  have common : ∀ act : Vrf → Result, gateWrite act s = .next t →
      (∀ u, s.vrfs[s.sel]? = some u → u.ready → act u = .next t →
        ∃ v, t = s.setVrf s.sel v ∧ CommandEffect s u i v) →
      ∃ u v, s.vrfs[s.sel]? = some u ∧ t = s.setVrf s.sel v ∧ CommandEffect s u i v := by
    intro act h own
    obtain ⟨u, hu, ⟨-, rfl⟩ | ⟨hf, -, rfl⟩ | ⟨hf, hb, h⟩⟩ := gateWrite_next h
    · exact ⟨u, u, hu, (setVrf_same hu).symm, .same i⟩
    · exact ⟨u, _, hu, rfl, .fault i _ hf (by decide)⟩
    · obtain ⟨v, ht, hv⟩ := own u hu ⟨hb, hf⟩ h
      exact ⟨u, v, hu, ht, hv⟩
  cases i with
  | nop =>
    refine common _ h fun u hu _ h => ?_
    injection h with h; subst h
    exact ⟨u, (setVrf_same hu).symm, .same _⟩
  | setup =>
    refine common _ h fun u _ hr h => ?_
    injection h with h
    exact ⟨_, h.symm, .setup hr⟩
  | step =>
    refine common _ h fun u _ hr h => ?_
    split at h <;> injection h with h
    · exact ⟨_, h.symm, .step hr ‹_›⟩
    · exact ⟨_, h.symm, .fault _ _ hr.2 (by decide)⟩
  | apply =>
    refine common _ h fun u _ hr h => ?_
    split at h
    · rename_i c hc
      injection h with h
      exact ⟨_, h.symm, .fault _ c hr.2 fun e => applyCheck_ne_noFault _ _ (e ▸ hc)⟩
    · split at h
      · exact absurd h (by simp)
      · injection h with h
        exact ⟨_, h.symm, .apply hr ‹_› (by simpa using ‹¬overlapsRunning _ _ _ = true›)⟩

end Sys2Proof.Machine
end

