-- ==== Sys2Proof/Laws/Memory.lean ====
section
/-! SUPPORT. The laws of sample memory (R41): read after write, and that every memory operation keeps the canonical
form and the addresses below a bound. -/

namespace Sys2Proof.Machine

theorem memCons_wf {a : Nat} {v : Sample} {m : Memory} (h : Memory.wf m) (lo : ∀ c ∈ m, a < c.1) :
    Memory.wf (memCons a v m) := by
  unfold memCons
  split
  · exact h
  · exact ⟨List.pairwise_cons.2 ⟨fun c hc => lo c hc, h.1⟩, List.forall_mem_cons.2 ⟨‹_›, h.2⟩⟩

/-- Every cell of `memSet m a v` is the new one or one of `m`. -/
theorem mem_memSet {m : Memory} {a : Nat} {v : Sample} {c : Nat × Sample} (h : c ∈ memSet m a v) :
    c = (a, v) ∨ c ∈ m := by
  induction m with
  | nil => simp only [memSet, memCons] at h; split at h <;> simp_all
  | cons d m ih =>
    simp only [memSet, memCons] at h
    split at h
    · rcases List.mem_cons.1 h with h | h
      · simp [h]
      · rcases ih h with h | h <;> simp [h]
    · split at h <;> split at h <;> (simp_all; try tauto)

/-- R41: a write keeps the canonical form. -/
theorem memSet_wf {m : Memory} (h : Memory.wf m) (a : Nat) (v : Sample) : Memory.wf (memSet m a v) := by
  induction m with
  | nil => exact memCons_wf h (by simp)
  | cons d m ih =>
    obtain ⟨hp, hv⟩ := h
    have hm : Memory.wf m := ⟨(List.pairwise_cons.1 hp).2, fun c hc => hv c (by simp [hc])⟩
    have hd := (List.pairwise_cons.1 hp).1
    simp only [memSet]
    split
    · refine ⟨List.pairwise_cons.2 ⟨fun c hc => ?_, (ih hm).1⟩, fun c hc => ?_⟩
      · rcases mem_memSet hc with rfl | hc
        · assumption
        · exact hd c hc
      · rcases List.mem_cons.1 hc with rfl | hc
        · exact hv c (by simp)
        · exact (ih hm).2 c hc
    · split
      · rename_i e
        exact memCons_wf hm (e ▸ hd)
      · refine memCons_wf ⟨hp, hv⟩ fun c hc => ?_
        rcases List.mem_cons.1 hc with rfl | hc
        · omega
        · have := hd c hc; omega

/-- A write at an address below a bound keeps every listed address below it. -/
theorem memSet_bound {m : Memory} {n a : Nat} {v : Sample} (h : ∀ c ∈ m, c.1 < n) (ha : a < n) :
    ∀ c ∈ memSet m a v, c.1 < n := by
  intro c hc
  rcases mem_memSet hc with rfl | hc
  · exact ha
  · exact h c hc

theorem memGet_of_above {m : Memory} {a : Nat} (h : ∀ c ∈ m, a < c.1) : memGet m a = unlistedSample := by
  induction m with
  | nil => rfl
  | cons d m ih =>
    have := h d (by simp)
    simp only [memGet, show d.1 ≠ a by omega, if_false]
    exact ih fun c hc => h c (by simp [hc])

theorem memGet_memCons_same {m : Memory} {a : Nat} {v : Sample} (h : ∀ c ∈ m, a < c.1) :
    memGet (memCons a v m) a = v := by
  unfold memCons
  split
  · rw [memGet_of_above h, ‹v = _›]
  · simp [memGet]

theorem memGet_memCons_other {m : Memory} {a b : Nat} {v : Sample} (h : b ≠ a) :
    memGet (memCons a v m) b = memGet m b := by
  unfold memCons
  split
  · rfl
  · simp [memGet, Ne.symm h]

/-- R52: a read at the address of the latest write gives what was written. -/
theorem memGet_memSet_same {m : Memory} (h : Memory.wf m) (a : Nat) (v : Sample) :
    memGet (memSet m a v) a = v := by
  induction m with
  | nil => exact memGet_memCons_same (by simp)
  | cons d m ih =>
    obtain ⟨hp, hv⟩ := h
    have hd := (List.pairwise_cons.1 hp).1
    simp only [memSet]
    split
    · simp only [memGet, show d.1 ≠ a by omega, if_false]
      exact ih ⟨(List.pairwise_cons.1 hp).2, fun c hc => hv c (by simp [hc])⟩
    · split
      · rename_i e
        exact memGet_memCons_same (e ▸ hd)
      · refine memGet_memCons_same fun c hc => ?_
        rcases List.mem_cons.1 hc with rfl | hc
        · omega
        · have := hd c hc; omega

/-- A write leaves every other sample alone, in every memory. -/
theorem memGet_memSet_other (m : Memory) {a b : Nat} (v : Sample) (h : b ≠ a) :
    memGet (memSet m a v) b = memGet m b := by
  induction m with
  | nil => exact memGet_memCons_other h
  | cons d m ih =>
    simp only [memSet]
    split
    · simp [memGet, ih]
    · split
      · rename_i e
        rw [memGet_memCons_other h]
        simp [memGet, e, Ne.symm h]
      · exact memGet_memCons_other h

/-- Two canonical memories that hold the same samples are equal. -/
theorem memory_ext {m m' : Memory} (h : Memory.wf m) (h' : Memory.wf m')
    (e : ∀ a, memGet m a = memGet m' a) : m = m' := by
  induction m generalizing m' with
  | nil =>
    cases m' with
    | nil => rfl
    | cons d m' => exact absurd (by simpa [memGet] using (e d.1).symm) (h'.2 d (by simp))
  | cons c m ih =>
    have hc := (List.pairwise_cons.1 h.1).1
    cases m' with
    | nil => exact absurd (by simpa [memGet] using e c.1) (h.2 c (by simp))
    | cons d m' =>
      have hd := (List.pairwise_cons.1 h'.1).1
      have key : c.1 = d.1 := by
        rcases Nat.lt_trichotomy c.1 d.1 with lt | eq | lt
        · have : memGet (d :: m') c.1 = unlistedSample := memGet_of_above fun x hx => by
            rcases List.mem_cons.1 hx with rfl | hx
            · exact lt
            · have := hd x hx; omega
          exact absurd (by rw [← this, ← e]; simp [memGet]) (h.2 c (by simp))
        · exact eq
        · have : memGet (c :: m) d.1 = unlistedSample := memGet_of_above fun x hx => by
            rcases List.mem_cons.1 hx with rfl | hx
            · exact lt
            · have := hc x hx; omega
          exact absurd (by rw [← this, e]; simp [memGet]) (h'.2 d (by simp))
      have val : c.2 = d.2 := by have := e c.1; simpa [memGet, key] using this
      have tail : m = m' := by
        refine ih ⟨(List.pairwise_cons.1 h.1).2, fun x hx => h.2 x (by simp [hx])⟩
          ⟨(List.pairwise_cons.1 h'.1).2, fun x hx => h'.2 x (by simp [hx])⟩ fun a => ?_
        by_cases ha : c.1 = a
        · rw [memGet_of_above fun x hx => ha ▸ hc x hx,
            memGet_of_above fun x hx => ha ▸ key ▸ hd x hx]
        · have := e a
          simpa [memGet, ha, key ▸ ha] using this
      rw [Prod.ext key val, tail]

/-- Writes at two different addresses commute on a canonical memory. -/
theorem memSet_comm {m : Memory} (h : Memory.wf m) {a b : Nat} (v w : Sample) (ab : a ≠ b) :
    memSet (memSet m a v) b w = memSet (memSet m b w) a v := by
  refine memory_ext (memSet_wf (memSet_wf h _ _) _ _) (memSet_wf (memSet_wf h _ _) _ _) fun x => ?_
  by_cases xb : x = b
  · subst xb
    rw [memGet_memSet_same (memSet_wf h _ _), memGet_memSet_other _ _ (Ne.symm ab), memGet_memSet_same h]
  · by_cases xa : x = a
    · subst xa
      rw [memGet_memSet_other _ _ xb, memGet_memSet_same h, memGet_memSet_same (memSet_wf h _ _)]
    · simp only [memGet_memSet_other _ _ xb, memGet_memSet_other _ _ xa]

end Sys2Proof.Machine
end

