-- ==== Sys2Proof/Laws/Step.lean ====
section
/-! SUPPORT. Everything a step can do, said once (`step_next`): every invariant and every whole-machine rule is a case
analysis over `StepEffect`. -/

namespace Sys2Proof.Machine

/-- What a host register write makes of the instance it reaches, from `u` to `v`. -/
inductive WriteEffect (s : State) (j off : Nat) (d : Word) (u : Vrf) : Vrf → Prop where
  | same : WriteEffect s j off d u u
  | fault (c : FCode) (hf : u.fault = false) (hc : c ≠ .noFault) : WriteEffect s j off d u (raiseFault c u)
  | stored (hr : u.ready) (ho : off ≠ 0) : WriteEffect s j off d u (writeOffset u off d)
  | setup (hr : u.ready) (ho : off = 0) (hd : decodeCommand d = .ok .setup) : WriteEffect s j off d u (prepare u)
  | step (hr : u.ready) (ho : off = 0) (hd : decodeCommand d = .ok .step) (hp : u.prep = true) :
    WriteEffect s j off d u (stepLatch u)
  | apply (hr : u.ready) (ho : off = 0) (hd : decodeCommand d = .ok .apply)
      (hc : applyCheck s.plat.memWords (hostFrame u) = none)
      (hd' : ∀ i v, i ≠ j → s.vrfs[i]? = some v → v.busy = true → framesOverlap (hostFrame u) (latchedFrame v) = false) :
    WriteEffect s j off d u (startApply u)

/-- Everything a step can make of the instances and of sample memory. -/
inductive StepEffect (s : State) : List Vrf → Memory → Prop where
  | quiet : StepEffect s s.vrfs s.mem
  | write (j off : Nat) (d : Word) (u v : Vrf) (hw : nextWrite s = some (j, off, 4, d)) (hu : s.vrfs[j]? = some u)
      (he : WriteEffect s j off d u v) : StepEffect s (s.vrfs.set j v) s.mem
  | sample (j : Nat) (u : Vrf) (hu : s.vrfs[j]? = some u) (hb : u.busy = true) (hi : u.idx.toNat < u.lcount.toNat)
      (ha : frameAddr (latchedFrame u) u.idx.toNat < s.plat.memWords) :
    StepEffect s
      (s.vrfs.set j (stepWorking u (memGet s.mem (frameAddr (latchedFrame u) u.idx.toNat))))
      (memSet s.mem (frameAddr (latchedFrame u) u.idx.toNat)
        (stepWorking u (memGet s.mem (frameAddr (latchedFrame u) u.idx.toNat))).w1)
  | commit (j : Nat) (u : Vrf) (hu : s.vrfs[j]? = some u) (hb : u.busy = true) (hi : u.lcount.toNat ≤ u.idx.toNat) :
    StepEffect s (s.vrfs.set j (commitApply u)) s.mem
  | resetOne (j : Nat) (u : Vrf) (hu : s.vrfs[j]? = some u) (hn : nextResets s j = true) :
    StepEffect s (s.vrfs.set j Vrf.reset) s.mem
  | resetAll (hn : ∀ j, nextResets s j = true) : StepEffect s (s.vrfs.map fun _ => Vrf.reset) s.mem
  | hostSample (a : Nat) (v : Sample) (hh : s.pending.head? = some (.sampleWrite a v)) (ha : a < s.plat.memWords)
      (hr : inRunningFrame s a = false) : StepEffect s s.vrfs (memSet s.mem a v)

/-- Everything an instance step can do. -/
theorem instanceStep_next {s t : State} {j : Nat} (h : instanceStep j s = .next t) :
    t = s ∨ ∃ u, s.vrfs[j]? = some u ∧ u.busy = true ∧
      ((u.idx.toNat < u.lcount.toNat ∧ frameAddr (latchedFrame u) u.idx.toNat < s.plat.memWords ∧
          t = (s.setMem (memSet s.mem (frameAddr (latchedFrame u) u.idx.toNat)
            (stepWorking u (memGet s.mem (frameAddr (latchedFrame u) u.idx.toNat))).w1)).setVrf j
              (stepWorking u (memGet s.mem (frameAddr (latchedFrame u) u.idx.toNat)))) ∨
        (u.lcount.toNat ≤ u.idx.toNat ∧ t = s.setVrf j (commitApply u))) := by
  unfold instanceStep at h
  split at h
  · injection h with h; exact .inl h.symm
  · rename_i u hu
    split at h
    · rename_i hb
      refine .inr ⟨u, hu, hb, ?_⟩
      unfold busyStep at h
      split at h
      · rename_i hi
        simp only [sampleStep, sampleAt] at h
        by_cases ha : frameAddr (latchedFrame u) u.idx.toNat < s.plat.memWords
        · simp only [ha, if_true] at h
          injection h with h
          exact .inl ⟨hi, ha, h.symm⟩
        · simp [ha] at h
      · injection h with h
        exact .inr ⟨by omega, h.symm⟩
    · injection h with h; exact .inl h.symm

/-- An instance step as an effect on a state with the same instances, memory and parameters. -/
theorem instanceStep_effect {s s' t : State} {j : Nat} (hv : s'.vrfs = s.vrfs) (hm : s'.mem = s.mem)
    (hp : s'.plat = s.plat) (h : instanceStep j s' = .next t) : t.plat = s.plat ∧ StepEffect s t.vrfs t.mem := by
  rcases instanceStep_next h with rfl | ⟨u, hu, hb, ⟨hi, ha, rfl⟩ | ⟨hi, rfl⟩⟩
  · rw [hv, hm]; exact ⟨hp, .quiet⟩
  · rw [hv] at hu
    simp only [State.setVrf_vrfs, State.setMem_vrfs, State.setVrf_mem, State.setMem_mem, State.setVrf_plat,
      State.setMem_plat, hv, hm]
    exact ⟨hp, .sample j u hu hb hi (hp ▸ ha)⟩
  · rw [hv] at hu
    simp only [State.setVrf_vrfs, State.setVrf_mem, State.setVrf_plat, hv, hm]
    exact ⟨hp, .commit j u hu hb hi⟩

/-- A free instance step is an instance step of some instance, or nothing. -/
theorem anyInstanceStep_effect {s s' t : State} (hv : s'.vrfs = s.vrfs) (hm : s'.mem = s.mem)
    (hp : s'.plat = s.plat) (h : anyInstanceStep s' = .next t) : t.plat = s.plat ∧ StepEffect s t.vrfs t.mem := by
  unfold anyInstanceStep at h
  split at h
  · injection h with h; subst h; rw [hv, hm]; exact ⟨hp, .quiet⟩
  · exact instanceStep_effect hv hm hp h
  · exact instanceStep_effect (s' := s'.countChoice) hv hm hp h

/-- A register write that answers a next state passed the checks of R55 and R15 and had one of the effects above. -/
theorem hostRegWrite_effect {s s' t : State} {j off size : Nat} {d : Word} (hv : s'.vrfs = s.vrfs)
    (hm : s'.mem = s.mem) (hp : s'.plat = s.plat) (hw : nextWrite s = some (j, off, size, d))
    (h : hostRegWrite j off size d s' = .next t) : t.plat = s.plat ∧ StepEffect s t.vrfs t.mem := by
  unfold hostRegWrite at h
  split at h
  · exact absurd h (by simp)
  · rename_i hacc
    have hsz : size = 4 := by
      by_contra hne
      simp [accessRefusal, registerAccessWf, accessIsWord, hne] at hacc
    subst hsz
    have finish : ∀ u v : Vrf, (s'.select j).vrfs[(s'.select j).sel]? = some u →
        t = (s'.select j).setVrf (s'.select j).sel v → WriteEffect s j off d u v →
        t.plat = s.plat ∧ StepEffect s t.vrfs t.mem := by
      rintro u v hu rfl he
      simp only [State.select_vrfs, State.select_sel, hv] at hu
      simp only [State.setVrf_vrfs, State.select_vrfs, State.select_sel, State.setVrf_mem, State.select_mem,
        State.setVrf_plat, State.select_plat, hv, hm, hp]
      exact ⟨trivial, .write j off d u v hw hu he⟩
    unfold writeSelected at h
    split at h
    · rename_i ho
      unfold writeCommand at h
      split at h
      · rename_i i hd
        obtain ⟨u, v, hu, ht, he⟩ := exec_next h
        refine finish u v hu ht ?_
        cases he with
        | same => exact .same
        | fault _ c hf hc => exact .fault c hf hc
        | setup hr => exact .setup hr ho hd
        | step hr hpr => exact .step hr ho hd hpr
        | apply hr hc hov =>
          refine .apply hr ho hd (by simpa [hp] using hc) fun i v hi hvi hb => ?_
          exact (overlapsRunning_false_iff _ _ _).1 hov i v hi (by simpa [hv] using hvi) hb
      · obtain ⟨u, hu, ⟨-, rfl⟩ | ⟨hf, -, rfl⟩ | ⟨hf, hb, h⟩⟩ := gateWrite_next h
        · exact finish u u hu (setVrf_same hu).symm .same
        · exact finish u _ hu rfl (.fault _ hf (by decide))
        · injection h with h
          exact finish u _ hu h.symm (.fault _ hf (by decide))
    · rename_i ho
      obtain ⟨u, hu, ⟨-, rfl⟩ | ⟨hf, -, rfl⟩ | ⟨hf, hb, h⟩⟩ := gateWrite_next h
      · exact finish u u hu (setVrf_same hu).symm .same
      · exact finish u _ hu rfl (.fault _ hf (by decide))
      · injection h with h
        exact finish u _ hu h.symm (.stored ⟨hb, hf⟩ ho)

/-- A register read that answers a next state changes only what the host saw and which instance it addressed. -/
theorem hostRegRead_next {s t : State} {j off size : Nat} (h : hostRegRead j off size s = .next t) :
    ∃ x, t = (s.select j).observe x := by
  unfold hostRegRead at h
  split at h
  · exact absurd h (by simp)
  · split at h
    · exact absurd h (by simp)
    · injection h with h; exact ⟨_, h.symm⟩

/-- Everything a step can do: if it answers a next state, the parameters are as before and the instances and sample
memory changed by one of the effects above. -/
theorem step_next {s t : State} (h : step s = .next t) : t.plat = s.plat ∧ StepEffect s t.vrfs t.mem := by
  unfold step nextStep at h
  split at h
  · exact anyInstanceStep_effect rfl rfl rfl h
  · rename_i op rest hpend
    unfold perform at h
    split at h
    · obtain ⟨x, rfl⟩ := hostRegRead_next h; exact ⟨rfl, .quiet⟩
    · exact hostRegWrite_effect (s' := s.setPending rest) rfl rfl rfl (by simp [nextWrite, hpend]) h
    · unfold hostBusRead at h
      split at h
      · exact absurd h (by simp)
      · obtain ⟨x, rfl⟩ := hostRegRead_next h; exact ⟨rfl, .quiet⟩
    · unfold hostBusWrite at h
      split at h
      · exact absurd h (by simp)
      · rename_i w hw
        refine hostRegWrite_effect (s' := s.setPending rest) rfl rfl rfl ?_ h
        simp only [State.setPending_plat] at hw
        simp [nextWrite, hpend, hw]
    · unfold hostSampleRead at h
      split at h
      · exact absurd h (by simp)
      · split at h
        · exact absurd h (by simp)
        · injection h with h; subst h; exact ⟨rfl, .quiet⟩
    · rename_i a v
      unfold hostSampleWrite at h
      split at h
      · exact absurd h (by simp)
      · rename_i x hx
        split at h
        · exact absurd h (by simp)
        · rename_i hr
          injection h with h; subst h
          refine ⟨rfl, .hostSample a v (by simp [hpend]) ?_ (by simpa [inRunningFrame] using hr)⟩
          by_contra hne
          simp [sampleAt, hne] at hx
    · unfold hostWait at h
      split at h
      · exact absurd h (by simp)
      · split at h
        · exact anyInstanceStep_effect rfl rfl rfl h
        · obtain ⟨x, rfl⟩ := hostRegRead_next h; exact ⟨rfl, .quiet⟩
    · exact instanceStep_effect (s' := s.setPending rest) rfl rfl rfl h
    · rename_i j
      unfold resetInstance at h
      split at h
      · exact absurd h (by simp)
      · rename_i u hu
        injection h with h; subst h
        exact ⟨rfl, .resetOne j u hu (by simp [nextResets, hpend])⟩
    · injection h with h; subst h
      exact ⟨rfl, .resetAll (by simp [nextResets, hpend])⟩

end Sys2Proof.Machine
end

