-- ==== Sys2Proof/Laws/Bus.lean ====
section
/-! SUPPORT. One run lemma for each host access and each instance step: under what conditions it answers which next
state. -/

namespace Sys2Proof.Machine

variable {s : State} {u : Vrf} {j : Nat}

/-! ### Host register accesses -/

/-- R15, R55: an aligned 32-bit access inside an existing instance's window is not refused. -/
theorem accessRefusal_none {off : Nat} (h : s.vrfs[j]? = some u) (h4 : off % 4 = 0) (hl : off < 0x100) :
    accessRefusal s j off 4 = none := by
  simp [accessRefusal, registerAccessWf, accessIsWord, accessIsAligned, windowBytes, h4, h]
  omega

/-- R97: a faulted instance ignores every command. -/
theorem exec_faulted (i : Instr) (h : s.vrfs[s.sel]? = some u) (hf : u.fault = true) : exec i s = .next s := by
  cases i <;> exact gateWrite_faulted _ h hf

/-- R97: a busy instance takes `BUSY_WRITE` on every command. -/
theorem exec_busy (i : Instr) (h : s.vrfs[s.sel]? = some u) (hf : u.fault = false) (hb : u.busy = true) :
    exec i s = takeFault .busyWrite u s := by
  cases i <;> exact gateWrite_busy _ h hf hb

/-! ### Host sample accesses -/

theorem hostSampleRead_run {a : Nat} (h : a < s.plat.memWords) :
    hostSampleRead a s =
      if inRunningFrame s a then .refused .hostFrameAccessWhileBusy
      else .next (s.observe (.sample a (memGet s.mem a))) := by
  simp [hostSampleRead, sampleAt, h]

theorem hostSampleWrite_run {a : Nat} (v : Sample) (h : a < s.plat.memWords) :
    hostSampleWrite a v s =
      if inRunningFrame s a then .refused .hostFrameAccessWhileBusy
      else .next (s.setMem (memSet s.mem a v)) := by
  simp [hostSampleWrite, sampleAt, h]

/-! ### Instance steps -/

/-- R104: the sample step. -/
theorem instanceStep_sample (hu : s.vrfs[j]? = some u) (hb : u.busy = true) (hi : u.idx.toNat < u.lcount.toNat)
    (ha : frameAddr (latchedFrame u) u.idx.toNat < s.plat.memWords) :
    instanceStep j s =
      .next ((s.setMem (memSet s.mem (frameAddr (latchedFrame u) u.idx.toNat)
        (stepWorking u (memGet s.mem (frameAddr (latchedFrame u) u.idx.toNat))).w1)).setVrf j
          (stepWorking u (memGet s.mem (frameAddr (latchedFrame u) u.idx.toNat)))) := by
  simp only [instanceStep, hu, hb, if_true, busyStep, hi, sampleStep, sampleAt, ha]

/-- R106: the commit. -/
theorem instanceStep_commit (hu : s.vrfs[j]? = some u) (hb : u.busy = true) (hi : u.lcount.toNat ≤ u.idx.toNat) :
    instanceStep j s = .next (s.setVrf j (commitApply u)) := by
  simp only [instanceStep, hu, hb, if_true, busyStep, show ¬ u.idx.toNat < u.lcount.toNat by omega, if_false]

/-- R105: no instance step is enabled while `BUSY` = 0. -/
theorem instanceStep_idle (hu : s.vrfs[j]? = some u) (hb : u.busy = false) : instanceStep j s = .next s := by
  simp [instanceStep, hu, hb]

/-- `busyInstances` lists exactly the instances with `BUSY` = 1. -/
theorem mem_busyInstances : j ∈ busyInstances s ↔ ∃ u, s.vrfs[j]? = some u ∧ u.busy = true := by
  unfold busyInstances
  rw [List.mem_filter, List.mem_range]
  constructor
  · rintro ⟨hj, h⟩
    split at h
    · rename_i u hu; exact ⟨u, hu, h⟩
    · simp at h
  · rintro ⟨u, hu, hb⟩
    exact ⟨(List.getElem?_eq_some_iff.1 hu).1, by simp [hu, hb]⟩

/-- With some instance busy, a free instance step is the step of a busy instance, whatever the free value is. -/
theorem anyInstanceStep_busy (h : busyInstances s ≠ []) :
    ∃ j u c, s.vrfs[j]? = some u ∧ u.busy = true ∧ anyInstanceStep s = instanceStep j { s with choices := c } := by
  unfold anyInstanceStep
  split
  · contradiction
  · rename_i j hj
    obtain ⟨u, hu, hb⟩ := mem_busyInstances.1 (show j ∈ busyInstances s by simp [hj])
    exact ⟨j, u, s.choices, hu, hb, rfl⟩
  · rename_i j i rest hj
    set k := ((j :: i :: rest)[Config.freeChoice s.choices % (rest.length + 2)]?).getD j with hk
    have : k ∈ busyInstances s := by
      have hl : Config.freeChoice s.choices % (rest.length + 2) < (j :: i :: rest).length :=
        Nat.mod_lt _ (by omega)
      rw [hj, hk, List.getElem?_eq_getElem hl]
      exact List.getElem_mem hl
    obtain ⟨u, hu, hb⟩ := mem_busyInstances.1 this
    exact ⟨k, u, s.choices + 1, hu, hb, rfl⟩

/-- An instance step neither reads nor writes the count of free choices. -/
theorem instanceStep_choices (s : State) (j c : Nat) :
    instanceStep j { s with choices := c } =
      match instanceStep j s with
      | .next t => .next { t with choices := c }
      | .fault r => .fault r
      | .refused r => .refused r := by
  simp only [instanceStep, busyStep, sampleStep, sampleAt]
  split
  · rfl
  · split
    · split
      · split
        · simp only
        · simp only; rfl
      · rfl
    · rfl

end Sys2Proof.Machine
end

