-- ==== Sys2Proof/Laws/Datapath.lean ====
section
/-! SUPPORT. The arithmetic of the datapath as facts on integers (R74 to R82), and the shape of Block (R85). -/

namespace Sys2Proof.Machine

/-- A sample lies in `-32768 .. 32767`. -/
theorem sample_range (x : Sample) : -32768 ≤ x.toInt ∧ x.toInt ≤ 32767 := by
  have h1 := BitVec.le_toInt x
  have h2 := BitVec.toInt_lt (x := x)
  norm_num at h1 h2
  omega

/-- An integer in the signed 32-bit range is held exactly. -/
theorem toInt_u32 {v : Int} (h1 : -2147483648 ≤ v) (h2 : v ≤ 2147483647) : (u32 v).toInt = v := by
  unfold u32
  rw [BitVec.toInt_ofInt, Int.bmod_def]
  norm_num
  split <;> omega

/-- R82: an integer in the signed 16-bit range passes the narrowing unchanged. -/
theorem toInt_s16 {v : Int} (h1 : -32768 ≤ v) (h2 : v ≤ 32767) : (s16 v).toInt = v := by
  unfold s16
  rw [BitVec.toInt_ofInt, Int.bmod_def]
  norm_num
  split <;> omega

theorem asr_preshift (v : Int) : asr v preshift = v / 2 := by norm_num [asr, preshift]

theorem asr_filterShift (v : Int) : asr v filterShift = v / 16384 := by norm_num [asr, filterShift]

/-- R74. -/
theorem setup_kh (k b1 b2 : Sample) : (setupCoefficients k b1 b2).kh.toInt = k.toInt / 2 := by
  have := sample_range k
  simp only [setupCoefficients, preparedGain, asr_preshift]
  exact toInt_u32 (by omega) (by omega)

/-- R75. -/
theorem setup_nb1 (k b1 b2 : Sample) : (setupCoefficients k b1 b2).nb1.toInt = -b1.toInt := by
  have := sample_range b1
  simp only [setupCoefficients, preparedFirst]
  exact toInt_u32 (by omega) (by omega)

/-- R76. -/
theorem setup_nb2 (k b1 b2 : Sample) : (setupCoefficients k b1 b2).nb2.toInt = (-b2.toInt) / 2 := by
  have := sample_range b2
  simp only [setupCoefficients, preparedSecond, asr_preshift]
  exact toInt_u32 (by omega) (by omega)

/-- A product of two integers in intervals lies between the least and the greatest product of their ends. -/
theorem mul_between {a b A B C D : Int} (h1 : A ≤ a) (h2 : a ≤ B) (h3 : C ≤ b) (h4 : b ≤ D) :
    min (min (A * C) (A * D)) (min (B * C) (B * D)) ≤ a * b ∧
      a * b ≤ max (max (A * C) (A * D)) (max (B * C) (B * D)) := by
  have atEnd : ∀ e : Int, min (e * C) (e * D) ≤ e * b ∧ e * b ≤ max (e * C) (e * D) := by
    intro e
    rcases le_total 0 e with he | he
    · have := mul_le_mul_of_nonneg_left h3 he
      have := mul_le_mul_of_nonneg_left h4 he
      omega
    · have := mul_le_mul_of_nonpos_left h3 he
      have := mul_le_mul_of_nonpos_left h4 he
      omega
  have lo := atEnd A
  have hi := atEnd B
  rcases le_total 0 b with hb | hb
  · have := mul_le_mul_of_nonneg_right h1 hb
    have := mul_le_mul_of_nonneg_right h2 hb
    omega
  · have := mul_le_mul_of_nonpos_right h1 hb
    have := mul_le_mul_of_nonpos_right h2 hb
    omega

@[simp] theorem filterBlock_nil (p : Prepared) (z : Delay) : filterBlock p z [] = ([], z) := rfl

/-- R85, one sample unrolled. -/
theorem filterBlock_cons (p : Prepared) (z : Delay) (x : Sample) (xs : List Sample) :
    filterBlock p z (x :: xs) =
      (stepOutput p z x :: (filterBlock p (shiftDelay z (stepOutput p z x)) xs).1,
        (filterBlock p (shiftDelay z (stepOutput p z x)) xs).2) := rfl

theorem filterBlock_length (p : Prepared) (z : Delay) (xs : List Sample) :
    (filterBlock p z xs).1.length = xs.length := by
  induction xs generalizing z with
  | nil => rfl
  | cons x xs ih => simp [filterBlock_cons, ih]

end Sys2Proof.Machine
end

