-- ==== Sys2Proof/Laws/Invariant.lean ====
section
/-! SUPPORT. The effects on one instance keep the invariant of an instance, and the invariant of the machine read at one
or two instances. -/

namespace Sys2Proof.Machine

variable {memWords : Nat} {u v : Vrf}

/-- R74 to R76: what the setup unit computes is in range. -/
theorem setup_inRange (k b1 b2 : Sample) : preparedInRange (setupCoefficients k b1 b2) := by
  have := sample_range k
  have := sample_range b1
  have := sample_range b2
  unfold preparedInRange
  rw [setup_kh, setup_nb1, setup_nb2]
  omega

theorem reset_inv (memWords : Nat) : Vrf.reset.Inv memWords where
  inRange := by decide
  unprepared := fun _ => rfl
  faultCode := by decide
  index := by decide
  indexIdle := fun _ => rfl
  prepared := fun h => absurd h (by decide)
  accepted := fun h => absurd h (by decide)
  frameKept := fun h => absurd h (by decide)
  setupKept := fun h => absurd h (by decide)

theorem raiseFault_inv {c : FCode} (hc : c ≠ .noFault) (h : u.Inv memWords) : (raiseFault c u).Inv memWords := by
  by_cases hf : u.fault = true
  · rw [raiseFault_of_faulted _ _ hf]; exact h
  · rw [raiseFault_of_clear _ _ (by simpa using hf)]
    exact ⟨h.inRange, h.unprepared, by simp [hc], h.index, h.indexIdle, h.prepared, h.accepted, h.frameKept,
      h.setupKept⟩

/-- A register write touches neither `BUSY` nor the state the invariant ties to `BUSY` = 0. -/
theorem writeOffset_inv {off : Nat} {d : Word} (hb : u.busy = false) (h : u.Inv memWords) :
    (writeOffset u off d).Inv memWords := by
  unfold writeOffset
  split
  · rename_i r _
    cases r <;>
      exact ⟨h.inRange, h.unprepared, h.faultCode, h.index, h.indexIdle, fun b => absurd b (by simp [writeReg, hb]),
        fun b => absurd b (by simp [writeReg, hb]), fun b => absurd b (by simp [writeReg, hb]),
        fun b => absurd b (by simp [writeReg, hb])⟩
  · exact h

theorem prepare_inv (hb : u.busy = false) (h : u.Inv memWords) : (prepare u).Inv memWords :=
  ⟨setup_inRange _ _ _, by simp, h.faultCode, h.index, h.indexIdle, by simp, h.accepted, h.frameKept, by simp [hb]⟩

theorem stepLatch_inv (h : u.Inv memWords) : (stepLatch u).Inv memWords :=
  ⟨h.inRange, h.unprepared, h.faultCode, h.index, h.indexIdle, h.prepared, h.accepted, h.frameKept, h.setupKept⟩

theorem startApply_inv (hc : applyCheck memWords (hostFrame u) = none) (h : u.Inv memWords) :
    (startApply u).Inv memWords :=
  ⟨setup_inRange _ _ _, by simp, h.faultCode, by simp, by simp, by simp, fun _ => hc, fun _ => rfl, fun _ => rfl⟩

theorem stepWorking_inv (x : Sample) (hb : u.busy = true) (hi : u.idx.toNat < u.lcount.toNat) (h : u.Inv memWords) :
    (stepWorking u x).Inv memWords := by
  refine ⟨h.inRange, h.unprepared, h.faultCode, ?_, by simp [hb], h.prepared, h.accepted, h.frameKept, h.setupKept⟩
  have := u.lcount.isLt
  simp only [stepWorking_idx, stepWorking_lcount, BitVec.toNat_add]
  simp
  omega

theorem commitApply_inv (hi : u.lcount.toNat ≤ u.idx.toNat) (h : u.Inv memWords) : (commitApply u).Inv memWords :=
  ⟨h.inRange, h.unprepared, h.faultCode, h.index,
    fun _ => BitVec.eq_of_toNat_eq (by have := h.index; simp; omega), by simp, by simp, by simp, by simp⟩

/-- Every effect of a host write keeps the instance's invariant. -/
theorem writeEffect_inv {s : State} {j off : Nat} {d : Word} (h : u.Inv s.plat.memWords)
    (he : WriteEffect s j off d u v) : v.Inv s.plat.memWords := by
  cases he with
  | same => exact h
  | fault c _ hc => exact raiseFault_inv hc h
  | stored hr => exact writeOffset_inv hr.1 h
  | setup hr => exact prepare_inv hr.1 h
  | step => exact stepLatch_inv h
  | apply _ _ _ hc => exact startApply_inv hc h

theorem framesApart_symm (h : framesApart u v) : framesApart v u := fun a b => by
  rw [framesOverlap_comm]; exact h b a

/-- The machine's invariant at two instances. -/
theorem State.Inv.apart {s : State} (h : s.Inv) {i j : Nat} (hij : i ≠ j) (hu : s.vrfs[i]? = some u)
    (hv : s.vrfs[j]? = some v) : framesApart u v := by
  have p := List.pairwise_iff_getElem.1 h.disjoint
  obtain ⟨a, rfl⟩ := List.getElem?_eq_some_iff.1 hu
  obtain ⟨b, rfl⟩ := List.getElem?_eq_some_iff.1 hv
  rcases Nat.lt_or_gt_of_ne hij with hlt | hlt
  · exact p i j a b hlt
  · exact framesApart_symm (p j i b a hlt)

/-- The machine's invariant at one instance. -/
theorem State.Inv.at {s : State} (h : s.Inv) {j : Nat} (hu : s.vrfs[j]? = some u) : u.Inv s.plat.memWords :=
  h.each u (List.mem_of_getElem? hu)

/-- R42: in a state that meets the invariant the next sample of a running `APPLY` exists. -/
theorem State.Inv.nextAddr {s : State} (h : s.Inv) {j : Nat} (hu : s.vrfs[j]? = some u) (hb : u.busy = true)
    (hi : u.idx.toNat < u.lcount.toNat) : frameAddr (latchedFrame u) u.idx.toNat < s.plat.memWords :=
  frameAddr_lt ((h.at hu).accepted hb) hi

/-- Replacing one instance by one that stays apart from the others keeps all frames apart. -/
theorem pairwise_set_framesApart {l : List Vrf} {j : Nat} (h : l.Pairwise framesApart)
    (hv : ∀ i w, i ≠ j → l[i]? = some w → framesApart v w) : (l.set j v).Pairwise framesApart := by
  rw [List.pairwise_iff_getElem] at h ⊢
  intro a b ha hb hab
  simp only [List.length_set] at ha hb
  rw [List.getElem_set, List.getElem_set]
  by_cases hja : j = a
  · rw [if_pos hja, if_neg (by omega)]
    exact hv b _ (by omega) (List.getElem?_eq_getElem hb)
  · rw [if_neg hja]
    by_cases hjb : j = b
    · rw [if_pos hjb]
      exact framesApart_symm (hv a _ (by omega) (List.getElem?_eq_getElem ha))
    · rw [if_neg hjb]; exact h a b ha hb hab

end Sys2Proof.Machine
end

