-- ==== Sys2Proof/Laws/PerInstr.lean ====
section
/-! SUPPORT. Statements made once per command: OneWord, that a command is well formed and is exactly one legal 32-bit
`CMD` word (R59, R65), which the decoder reads back from the opcode table's bits. -/

namespace Sys2Proof.Laws.OneWord

/-- R59, R65: the one word of a command has `RSV` = 0 and a defined `OP`, and decodes to it. -/
def Statement (i : Instr) : Prop :=
  i.wf = true ∧ commandWordWf (encode i) = true ∧ decodeTableWord 32 (encode i).toNat = some i

theorem nop : Statement .nop := ⟨rfl, by decide, by decide⟩

theorem setup : Statement .setup := ⟨rfl, by decide, by decide⟩

theorem step : Statement .step := ⟨rfl, by decide, by decide⟩

theorem apply : Statement .apply := ⟨rfl, by decide, by decide⟩

end Sys2Proof.Laws.OneWord
end

