-- ==== Sys2Proof/Tests/Slice0.lean ====
section
/-! SUPPORT. The model's own tests, each on one step of a small state, and for every statement with hypotheses a
witness that meets them. Expected values come from the spec: opcode words from R60, values from 95_test_vectors.md and
from the worked examples of the rules named. -/

open Sys2Proof Sys2Proof.Machine Sys2Proof.Spec

namespace Sys2Proof.Tests

/-! ### Small states -/

/-- What an outcome answers, if it is a next state. -/
def answer {α : Type} (r : Result) (f : State → α) : Option α :=
  match r with
  | .next t => some (f t)
  | .fault _ => none
  | .refused _ => none

/-- The refusal of an outcome, if it is one. -/
def refusal (r : Result) : Option Refusal :=
  match r with
  | .next _ => none
  | .fault _ => none
  | .refused x => some x

/-- A state of the given instances with `MEM_WORDS` = 64, as the vectors of 95_test_vectors.md have it. -/
def machineOf (vs : List Vrf) (m : Memory) (ops : List HostOp) : State where
  vrfs := vs
  mem := m
  plat := { memWords := 64, filtBase := 0x1000, hostEndian := .little }
  sel := 0
  pending := ops
  seen := []
  choices := 0

/-- The coefficients of vector V-S1, nothing prepared. -/
def loaded : Vrf := { Vrf.reset with k := 16384#16, b1 := 0xC000#16, b2 := 16384#16 }

/-- After `SETUP` on `loaded`, with `XY` = 16384 (R101's example). -/
def ready : Vrf :=
  { loaded with kh := 0x2000#32, nb1 := 0x4000#32, nb2 := 0xFFFFE000#32, prep := true, xy := 16384#16 }

/-- `loaded` with the frame of program P1: base 16, 8 samples, stride 1. -/
def framed : Vrf := { loaded with fbase := 16#32, fcount := 8#32, fstride := 1#32 }

/-- `framed` right after the start of its `APPLY`. -/
def running : Vrf :=
  { framed with
    kh := 0x2000#32, nb1 := 0x4000#32, nb2 := 0xFFFFE000#32, prep := true
    lbase := 16#32, lcount := 8#32, lstride := 1#32, busy := true }

/-- `running` after its 8 sample steps (R106's example). -/
def finished : Vrf := { running with idx := 8#32, w1 := 0#16, w2 := 0xFC00#16 }

/-- Another running instance, over addresses 40 and 42. -/
def runningElsewhere : Vrf :=
  { running with fbase := 40#32, fcount := 2#32, fstride := 2#32, lbase := 40#32, lcount := 2#32, lstride := 2#32 }

/-- A faulted instance (vector V-F1). -/
def faulted : Vrf := { loaded with fault := true, fcode := .notPrepared }

/-- The impulse of program P1. -/
def impulse : Memory := [(16, 16384#16)]

/-! ### Decoding: the words of R60, written out bit by bit -/

theorem test_decode_nop : decodeTableWord 32 0b00000000000000000000000000000000 = some .nop := by decide
theorem test_decode_setup : decodeTableWord 32 0b00000000000000000000000000000001 = some .setup := by decide
theorem test_decode_step : decodeTableWord 32 0b00000000000000000000000000000010 = some .step := by decide
theorem test_decode_apply : decodeTableWord 32 0b00000000000000000000000000000011 = some .apply := by decide
/-- Vectors V-F6a and V-F6b. -/
theorem test_decode_illegal : decodeTableWord 32 0x13 = none ∧ decodeTableWord 32 0x4 = none := by decide

/-! ### Well-formedness: each check refuses an ill-formed term -/

theorem test_wf_rsv : commandWordWf 0x00000010#32 = false ∧ rsvIsZero 0x00000010#32 = false := by decide
theorem test_wf_op : commandWordWf 0x00000004#32 = false ∧ opIsDefined 0x00000004#32 = false := by decide
theorem test_wf_good : commandWordWf 0x00000003#32 = true := by decide
theorem test_wf_size : registerAccessWf 0x08 2 = false ∧ accessIsWord 2 = false := by decide
theorem test_wf_aligned : registerAccessWf 0x0A 4 = false ∧ accessIsAligned 0x0A = false := by decide
theorem test_wf_instr : Instr.nop.wf ∧ Instr.setup.wf ∧ Instr.step.wf ∧ Instr.apply.wf := by decide

/-! ### From reset -/

theorem test_reset_fetches_nop : answer (step (State.reset.withFetchWord 32 0)) (fun t => t.sel) = some 0 := by decide
/-- `SETUP` from reset sets `PREP` (R100), read as bit 2 of `STATUS`. -/
theorem test_reset_fetches_setup :
    answer (step (State.reset.withFetchWord 32 1)) (fun t => (t.vrfs[0]?).map statusWord) = some (some 0x00000004#32) := by
  decide
/-- Vector V-F1: `STEP` from reset faults `NOT_PREPARED`. -/
theorem test_reset_fetches_step :
    answer (step (State.reset.withFetchWord 32 2)) (fun t => (t.vrfs[0]?).map statusWord) = some (some 0x00000202#32) := by
  decide
/-- `APPLY` from reset has `FCOUNT` = 0, so it starts (R108): `PREP` and `BUSY`. -/
theorem test_reset_fetches_apply :
    answer (step (State.reset.withFetchWord 32 3)) (fun t => (t.vrfs[0]?).map statusWord) = some (some 0x00000005#32) := by
  decide

/-! ### The commands -/

/-- Vector V-F9. -/
theorem test_nop : answer (exec .nop (machineOf [ready] impulse [])) id = some (machineOf [ready] impulse []) := by decide
/-- R62: `NOP` is subject to the `BUSY` rule. -/
theorem test_nop_busy :
    answer (exec .nop (machineOf [running] impulse [])) (fun t => (t.vrfs[0]?).map statusWord) =
      some (some 0x00000607#32) := by decide
/-- Vector V-S1 as the host reads it. -/
theorem test_setup :
    answer (exec .setup (machineOf [loaded] [] [])) (fun t => t.vrfs.map fun u => (u.kh, u.nb1, u.nb2)) =
      some [(0x00002000#32, 0x00004000#32, 0xFFFFE000#32)] := by decide
/-- Vectors V-S4 (`b1` = -32768) and V-S6 (odd `b2`, negated before the shift). -/
theorem test_setup_corners :
    setupCoefficients 0x8000#16 0x8000#16 0x8000#16 = ⟨0xFFFFC000#32, 0x00008000#32, 0x00004000#32⟩ ∧
      setupCoefficients 3#16 1#16 3#16 = ⟨0x00000001#32, 0xFFFFFFFF#32, 0xFFFFFFFE#32⟩ := by decide
/-- Vector V-T1, the example of R101. -/
theorem test_step :
    answer (exec .step (machineOf [ready] [] [])) (fun t => t.vrfs.map fun u => (u.xy, u.z1, u.z2)) =
      some [(8192#16, 8192#16, 0#16)] := by decide
/-- Vectors V-T4, V-T8 and V-T11: rounding toward minus infinity, and outputs that wrap. -/
theorem test_step_corners :
    filterStep ⟨1#32, 0#32, 0#32⟩ ⟨0#16, 0#16⟩ (-16385) = (-2, ⟨-2, 0#16⟩) ∧
      filterStep ⟨0xFFFFC000#32, 0x00008000#32, 0xFFFFC000#32⟩ ⟨32767, -32768⟩ (-32768) = (-2, ⟨-2, 32767⟩) ∧
        filterStep ⟨1#32, 16384#32, 0#32⟩ ⟨-32768, 0#16⟩ (-16385) = (32766, ⟨32766, -32768⟩) := by decide
/-- The example of R103: `STATUS` after the start of program P1's `APPLY`. -/
theorem test_apply_starts :
    answer (exec .apply (machineOf [framed] impulse [])) (fun t => (t.vrfs.map statusWord, t.vrfs.map latchedFrame)) =
      some ([0x00000005#32], [⟨16, 8, 1⟩]) := by decide
/-- Vectors V-F3, V-F6c and V-F4: `NULL_FRAME` before `BAD_STRIDE`, `BAD_STRIDE`, `OUT_OF_RANGE`. -/
theorem test_apply_faults :
    applyCheck 64 ⟨0, 3, 0⟩ = some .nullFrame ∧ applyCheck 64 ⟨10, 2, 0⟩ = some .badStride ∧
      applyCheck 64 ⟨60, 3, 2⟩ = some .outOfRange ∧ applyCheck 64 ⟨61, 2, 2⟩ = none := by decide

/-! ### The sequencer, the host and reset -/

/-- The example of R104. -/
theorem test_sample_step :
    answer (instanceStep 0 (machineOf [running] impulse []))
        (fun t => (memGet t.mem 16, t.vrfs.map fun u => (u.w1, u.w2, u.idx))) =
      some (8192#16, [(8192#16, 0#16, 1#32)]) := by decide
/-- The example of R106. -/
theorem test_commit :
    answer (instanceStep 0 (machineOf [finished] [] []))
        (fun t => t.vrfs.map fun u => (u.z1, u.z2, statusWord u)) =
      some [(0#16, 0xFC00#16, 0x00000004#32)] := by decide
/-- Vector V-F5: a write during an `APPLY` reads `STATUS` 0x607 afterwards and stores nothing. -/
theorem test_busy_write :
    answer (step (machineOf [running] impulse [.regWrite 0 0x08 4 7#32]))
        (fun t => t.vrfs.map fun u => (statusWord u, u.k)) = some [(0x00000607#32, 16384#16)] := by decide
/-- R63: 0xFFFFC000 and 0x0000C000 both write -16384, read back as 0x0000C000. -/
theorem test_register_write :
    answer (step (machineOf [loaded] [] [.regWrite 0 0x08 4 0xFFFFC000#32]))
        (fun t => t.vrfs.map fun u => (u.k.toInt, readOffset u 0x08)) = some [(-16384, 0x0000C000#32)] := by decide
/-- Vector V-F11: a reserved offset reads 0. -/
theorem test_reserved_read :
    answer (step (machineOf [running] [] [.regRead 0 0x40 4])) (fun t => t.seen) = some [.reg 0 0x40 0#32] := by decide
/-- R55. -/
theorem test_subword :
    refusal (step (machineOf [loaded] [] [.regRead 0 0x09 4])) = some .subwordRegisterAccess := by decide
/-- R15: the window of instance 1 starts 0x100 above that of instance 0. -/
theorem test_bus_window : busWindow 0x1000 0x1114 = some (1, 0x14) ∧ busAddress 0x1000 1 0x14 = 0x1114 := by decide
/-- R48: the last address of the running frame of program P1 is 23. -/
theorem test_running_frame :
    refusal (step (machineOf [running] [] [.sampleRead 23])) = some .hostFrameAccessWhileBusy ∧
      answer (step (machineOf [running] [] [.sampleRead 24])) (fun t => t.seen) = some [.sample 24 0#16] := by decide
/-- R49: a frame that meets the running one in one address. -/
theorem test_overlap :
    refusal (exec .apply (machineOf [{ framed with fbase := 23#32 }, running] [] [])) = some .overlappingFrames := by
  decide
/-- R133: a reset during an `APPLY` clears the instance and leaves the samples. -/
theorem test_reset_one :
    answer (step (machineOf [running] impulse [.resetOne 0])) (fun t => (t.vrfs, t.mem)) = some ([Vrf.reset], impulse) := by
  decide
/-- R66, R69: the encoding of `SETCOEF 16384, -16384, 16384` in program P1. -/
theorem test_program_encoding :
    programTriples [.setcoef 16384 (-16384) 16384] =
      [.w 0x08 0x00004000#32, .w 0x0C 0xFFFFC000#32, .w 0x10 0x00004000#32] := by decide

/-! ### The invariant on small states -/

theorem inv_of_ready_vrf : ready.Inv 64 :=
  ⟨by decide, by decide, by decide, by decide, by decide, by decide, by decide, by decide, by decide⟩
theorem inv_of_framed : framed.Inv 64 :=
  ⟨by decide, by decide, by decide, by decide, by decide, by decide, by decide, by decide, by decide⟩
theorem inv_of_running : running.Inv 64 :=
  ⟨by decide, by decide, by decide, by decide, by decide, by decide, by decide, by decide, by decide⟩
theorem inv_of_runningElsewhere : runningElsewhere.Inv 64 :=
  ⟨by decide, by decide, by decide, by decide, by decide, by decide, by decide, by decide, by decide⟩

/-- Two running instances over disjoint frames, or one idle and one running, meet the machine's invariant. -/
theorem inv_of_two {u v : Vrf} (hu : u.Inv 64) (hv : v.Inv 64) (hd : framesApart u v) (ops : List HostOp) :
    (machineOf [u, v] impulse ops).Inv where
  memWords := by simp [machineOf]
  instances := by simp [machineOf]
  memWf := (by decide : Memory.wf impulse)
  memBound := (by decide : ∀ c ∈ impulse, c.1 < 64)
  each := by simpa [machineOf] using ⟨hu, hv⟩
  disjoint := by simpa [machineOf] using hd

/-! ### Witnesses: the hypotheses of each statement can be met together -/

theorem witness_StepRunsDecodedCommand :
    let s := machineOf [ready] [] [.regWrite 0 0 4 2#32]
    s.pending = [.regWrite 0 0 4 2#32] ∧ s.vrfs[0]? = some ready ∧ decodeCommand 2#32 = .ok .step := by decide

/-- The last offset of a window, and a bus read of `K` of an existing instance that answers its value. -/
theorem witness_BusAddressReachesWindow :
    (0xFC : Nat) < 0x100 ∧ (0x08 : Nat) < 0x100 ∧
      let s := machineOf [Vrf.reset, ready] [] []
      answer (step { s with pending := [.busRead (s.plat.filtBase + 0x100 * 1 + 0x08) 4] }) (fun t => t.seen) =
        some [.reg 1 0x08 (BitVec.ofNat 32 ready.k.toNat)] := by decide

/-- Both kinds of illegal word. -/
theorem witness_IllegalWordRaisesIllegalCmd :
    let s (d : Word) := machineOf [ready] [] [.regWrite 0 0 4 d]
    ((s 16#32).pending = [.regWrite 0 0 4 16#32] ∧ (s 16#32).vrfs[0]? = some ready ∧ ready.busy = false ∧
        ready.fault = false ∧ (16#32).toNat / 16 ≠ 0) ∧
      (s 4#32).pending = [.regWrite 0 0 4 4#32] ∧ (s 4#32).vrfs[0]? = some ready ∧ 4 ≤ (4#32).toNat % 16 := by decide

/-- At the lowest and at the highest offset of the window. -/
theorem witness_FaultedInstanceIgnoresWrites :
    ∀ off ∈ [0x00, 0xFC],
      (machineOf [faulted] [] [.regWrite 0 off 4 1#32]).pending = [.regWrite 0 off 4 1#32] ∧ off % 4 = 0 ∧
        off < 0x100 ∧ (machineOf [faulted] [] [.regWrite 0 off 4 1#32]).vrfs[0]? = some faulted ∧
          faulted.fault = true := by decide

theorem witness_BusyInstanceDropsWrites :
    ∀ off ∈ [0x00, 0xFC],
      (machineOf [running] [] [.regWrite 0 off 4 1#32]).pending = [.regWrite 0 off 4 1#32] ∧ off % 4 = 0 ∧
        off < 0x100 ∧ (machineOf [running] [] [.regWrite 0 off 4 1#32]).vrfs[0]? = some running ∧
          running.fault = false ∧ running.busy = true := by decide

/-- At every offset that the statement gives an effect of its own, and at the first and last that store nothing. -/
theorem witness_RegisterWriteStores :
    ∀ off ∈ [0x08, 0x0C, 0x10, 0x14, 0x18, 0x1C, 0x20, 0x24, 0x28, 0x04, 0x2C, 0x30, 0x34, 0x38, 0x3C, 0xFC],
      (machineOf [ready] [] [.regWrite 0 off 4 7#32]).pending = [.regWrite 0 off 4 7#32] ∧ off % 4 = 0 ∧ 0 < off ∧
        off < 0x100 ∧ (machineOf [ready] [] [.regWrite 0 off 4 7#32]).vrfs[0]? = some ready ∧ ready.busy = false ∧
          ready.fault = false := by decide

/-- At every register's offset and at the first and last reserved ones, on a busy instance. -/
theorem witness_RegisterReadReturns :
    ∀ off ∈ [0x00, 0x04, 0x08, 0x0C, 0x10, 0x14, 0x18, 0x1C, 0x20, 0x24, 0x28, 0x2C, 0x30, 0x34, 0x38, 0x3C, 0xFC],
      (machineOf [running] [] [.regRead 0 off 4]).pending = [.regRead 0 off 4] ∧ off % 4 = 0 ∧ off < 0x100 ∧
        (machineOf [running] [] [.regRead 0 off 4]).vrfs[0]? = some running := by decide

/-- At the ends of both ranges. -/
theorem witness_WrittenRegisterReadsBack :
    ∀ off ∈ [0x08, 0x1C, 0x20, 0x28],
      (machineOf [ready] [] [.regWrite 0 off 4 0x12345678#32, .regRead 0 off 4]).pending =
          [.regWrite 0 off 4 0x12345678#32, .regRead 0 off 4] ∧ off % 4 = 0 ∧ 0x08 ≤ off ∧ off ≤ 0x28 ∧
        ready.busy = false ∧ ready.fault = false := by decide

theorem witness_SubwordAccessRefused : ((2 : Nat) ≠ 4 ∨ 8 % 4 ≠ 0) ∧ ((4 : Nat) ≠ 4 ∨ 0x0A % 4 ≠ 0) := by decide

theorem witness_NopChangesNothing :
    (machineOf [ready] [] []).vrfs[(machineOf [ready] [] []).sel]? = some ready ∧ ready.busy = false ∧
      ready.fault = false := by decide

theorem witness_SetupPrepares :
    (machineOf [ready] [] []).vrfs[(machineOf [ready] [] []).sel]? = some ready ∧ ready.busy = false ∧
      ready.fault = false := by decide

theorem witness_SetupTwiceIsOnce :
    (machineOf [ready] [] []).vrfs[(machineOf [ready] [] []).sel]? = some ready ∧ ready.busy = false ∧
      ready.fault = false := by decide

theorem witness_StepFiltersTheLatch :
    (machineOf [ready] [] []).vrfs[(machineOf [ready] [] []).sel]? = some ready ∧ ready.busy = false ∧
      ready.fault = false ∧ ready.prep = true := by decide

theorem witness_StepWithoutSetupFaults :
    (machineOf [loaded] [] []).vrfs[(machineOf [loaded] [] []).sel]? = some loaded ∧ loaded.busy = false ∧
      loaded.fault = false ∧ loaded.prep = false := by decide

/-- One instance for each of the three checks, at the boundary of its range. -/
theorem witness_ApplyChecksInOrder :
    (let u := { loaded with fcount := 1#32 };
      (machineOf [u] [] []).vrfs[0]? = some u ∧ u.busy = false ∧ u.fault = false ∧
        1 ≤ u.fcount.toNat ∧ u.fbase = 0#32) ∧
      (let u := { loaded with fcount := 2#32, fbase := 1#32 };
        (machineOf [u] [] []).vrfs[0]? = some u ∧ 2 ≤ u.fcount.toNat ∧ u.fbase ≠ 0#32 ∧ u.fstride = 0#32) ∧
        (let u := { loaded with fcount := 1#32, fbase := 64#32 };
          (machineOf [u] [] []).vrfs[0]? = some u ∧ 1 ≤ u.fcount.toNat ∧ u.fbase ≠ 0#32 ∧
            (u.fcount.toNat = 1 ∨ u.fstride ≠ 0#32) ∧
              64 ≤ u.fbase.toNat + (u.fcount.toNat - 1) * u.fstride.toNat) := by decide

theorem witness_frameOk : frameOk 64 framed := by
  refine ⟨?_, ?_, ?_⟩ <;> decide

/-- An idle instance with the frame of P1 beside a running one elsewhere: the hypotheses of `ApplyStarts`. -/
theorem witness_frameFree (ops : List HostOp) : frameFree (machineOf [framed, runningElsewhere] impulse ops) 0 framed := by
  intro i v hi hv _ p hp q hq
  have hp' : p < 8 := hp
  match i, hi with
  | 1, _ =>
    obtain rfl : runningElsewhere = v := by simpa [machineOf] using hv
    have hq' : q < 2 := hq
    show 16 + p * 1 ≠ 40 + q * 2
    omega
  | n + 2, _ => simp [machineOf] at hv

theorem witness_ApplyStarts :
    let s := machineOf [framed, runningElsewhere] impulse []
    s.vrfs[s.sel]? = some framed ∧ framed.busy = false ∧ framed.fault = false ∧ frameOk s.plat.memWords framed ∧
      frameFree s s.sel framed :=
  ⟨by decide, by decide, by decide, witness_frameOk, witness_frameFree []⟩

theorem witness_OverlappingApplyRefused :
    let s := machineOf [framed, running] impulse []
    s.vrfs[s.sel]? = some framed ∧ framed.busy = false ∧ framed.fault = false ∧ frameOk s.plat.memWords framed ∧
      ¬ frameFree s s.sel framed :=
  ⟨by decide, by decide, by decide, witness_frameOk,
    fun h => h 1 running (by decide) (by decide) (by decide) 0 (by decide) 0 (by decide) (by decide)⟩

/-- Each command answers a next state somewhere, so the frame statement speaks of all four. -/
theorem witness_CommandFrame :
    ∀ i ∈ [Instr.nop, .setup, .step, .apply], (answer (exec i (machineOf [ready] [] [])) id).isSome = true := by decide

/-- Values inside and outside the 16-bit range. -/
theorem witness_NarrowingWraps : (-32768 ≤ (32767 : Int) ∧ (32767 : Int) ≤ 32767) ∧ ¬ ((32768 : Int) ≤ 32767) := by decide

theorem witness_SampleStepIsExact : preparedInRange ⟨0x2000#32, 0x00008000#32, 0xFFFFC000#32⟩ := by decide

/-- The two blocks of program P2, on the left channel. -/
theorem witness_StateContinuity :
    filterBlock ⟨0x2000#32, 0x4000#32, 0xFFFFE000#32⟩ ⟨0, 0⟩ [16384, 0, 0, 0] = ([8192, 8192, 4096, 0], ⟨0, 4096⟩) ∧
      filterBlock ⟨0x2000#32, 0x4000#32, 0xFFFFE000#32⟩ ⟨0, 4096⟩ [0, 0, 0, 0] =
        ([-2048, -2048, -1024, 0], ⟨0, -1024⟩) ∧
      filterApply 16384 (-16384) 16384 ⟨0, 0⟩ [16384, 0, 0, 0] = ([8192, 8192, 4096, 0], ⟨0, 4096⟩) ∧
      filterApply 16384 (-16384) 16384 ⟨0, 4096⟩ [0, 0, 0, 0] = ([-2048, -2048, -1024, 0], ⟨0, -1024⟩) := by decide

/-- A frame whose last address is the last of sample memory. -/
theorem witness_FrameAddressesDistinct : applyCheck 64 ⟨61, 2, 2⟩ = none ∧ (0 : Nat) < 2 ∧ (1 : Nat) < 2 := by decide

theorem witness_SampleStepFiltersOneSample :
    let s := machineOf [running] impulse []
    s.mem.wf ∧ s.vrfs[0]? = some running ∧ running.busy = true ∧ running.idx.toNat < running.lcount.toNat ∧
      16 = running.lbase.toNat + running.idx.toNat * running.lstride.toNat ∧ 16 < s.plat.memWords ∧
        8192#16 = output running.kh running.nb1 running.nb2 running.w1 running.w2 (memGet s.mem 16) := by decide

theorem witness_CommitWritesBack :
    (machineOf [finished] [] []).vrfs[0]? = some finished ∧ finished.busy = true ∧ finished.idx = finished.lcount := by
  decide

/-- A sample step, a commit, and an idle instance: the clauses of the frame statement. -/
theorem witness_InstanceStepFrame :
    (∀ u ∈ [running, finished, ready], (answer (instanceStep 0 (machineOf [u] impulse [])) id).isSome = true) ∧
      (running.busy = true ∧ running.idx.toNat < running.lcount.toNat) ∧
        (ready.busy = false ∨ ready.lcount.toNat ≤ ready.idx.toNat) ∧
          (finished.busy = false ∨ finished.lcount.toNat ≤ finished.idx.toNat) := by decide

theorem witness_ApplyFiltersTheFrame :
    let ops : List HostOp := .regWrite 0 0 4 3#32 :: List.replicate (framed.fcount.toNat + 1) (.instanceStep 0)
    let s := machineOf [framed, runningElsewhere] impulse ops
    s.Inv ∧ s.vrfs[0]? = some framed ∧ framed.busy = false ∧ framed.fault = false ∧
      frameOk s.plat.memWords framed ∧ frameFree s 0 framed ∧ s.pending = ops :=
  ⟨inv_of_two inv_of_framed inv_of_runningElsewhere (by decide) _, rfl, rfl, rfl, witness_frameOk,
    witness_frameFree _, rfl⟩

theorem witness_EmptyApplyOnlyPrepares :
    (machineOf [loaded] [] []).vrfs[(machineOf [loaded] [] []).sel]? = some loaded ∧ loaded.busy = false ∧
      loaded.fault = false ∧ loaded.fcount = 0#32 := by decide

/-- Vector V-F7: one sample at address 10, gain 16384 alone, 100 gives 50; beside it another running instance. -/
theorem witness_SingleSampleApply :
    let u := { Vrf.reset with k := 16384#16, fbase := 10#32, fcount := 1#32 }
    let s := machineOf [u, runningElsewhere] [(10, 100#16)] []
    s.mem.wf ∧ s.vrfs[s.sel]? = some u ∧ u.busy = false ∧ u.fault = false ∧ u.fcount = 1#32 ∧ u.fbase ≠ 0#32 ∧
      u.fbase.toNat < s.plat.memWords ∧
      (∀ i v, i ≠ s.sel → s.vrfs[i]? = some v → v.busy = true → ∀ q < v.lcount.toNat,
        u.fbase.toNat ≠ v.lbase.toNat + q * v.lstride.toNat) ∧
      50#16 = output (prepared u).kh (prepared u).nb1 (prepared u).nb2 u.z1 u.z2 (memGet s.mem u.fbase.toNat) := by
  refine ⟨by decide, by decide, by decide, by decide, by decide, by decide, by decide, ?_, by decide⟩
  intro i v hi hv _ q hq
  match i, hi with
  | 1, _ =>
    obtain rfl : runningElsewhere = v := by simpa [machineOf] using hv
    have hq' : q < 2 := hq
    show 10 ≠ 40 + q * 2
    omega
  | n + 2, _ => simp [machineOf] at hv

theorem witness_StepsComputeTheBlock :
    let ops : List HostOp := [.regWrite 0 0x1C 4 16384#32, .regWrite 0 0 4 2#32, .regRead 0 0x1C 4]
    let s := machineOf [ready] [] ops
    s.vrfs[0]? = some ready ∧ ready.busy = false ∧ ready.fault = false ∧ ready.prep = true ∧
      s.pending = [16384#16].flatMap (fun x =>
        [.regWrite 0 0x1C 4 (BitVec.ofNat 32 x.toNat), .regWrite 0 0 4 0x00000002#32, .regRead 0 0x1C 4]) ++ [] := by
  decide

/-- Two running instances with nothing pending: 9 + 3 steps are left. -/
theorem witness_EveryApplyEnds :
    (machineOf [running, runningElsewhere] impulse []).Inv ∧
      (machineOf [running, runningElsewhere] impulse []).pending = [] ∧
        stepsLeft (machineOf [running, runningElsewhere] impulse []) = 12 :=
  ⟨inv_of_two inv_of_running inv_of_runningElsewhere (by decide) _, rfl, by decide⟩

theorem witness_InstanceStepsCommute :
    let s := machineOf [running, runningElsewhere] impulse []
    s.Inv ∧ (0 : Nat) ≠ 1 ∧ s.vrfs[0]? = some running ∧ s.vrfs[1]? = some runningElsewhere ∧ running.busy = true ∧
      runningElsewhere.busy = true :=
  ⟨inv_of_two inv_of_running inv_of_runningElsewhere (by decide) _, by decide, rfl, rfl, rfl, rfl⟩

/-- The last frame address. -/
theorem witness_RunningFrameIsTheInstances :
    (machineOf [running] [] []).vrfs[0]? = some running ∧ running.busy = true ∧ 7 < running.lcount.toNat ∧
      23 = running.lbase.toNat + 7 * running.lstride.toNat ∧ 23 < (machineOf [running] [] []).plat.memWords := by decide

theorem witness_HostSampleWriteReadsBack :
    let s := machineOf [running] impulse [.sampleWrite 24 7#16, .sampleRead 24]
    s.mem.wf ∧ 24 < s.plat.memWords ∧
      (∀ u ∈ s.vrfs, u.busy = true → ∀ p < u.lcount.toNat, 24 ≠ u.lbase.toNat + p * u.lstride.toNat) ∧
        s.pending = [.sampleWrite 24 7#16, .sampleRead 24] := by
  refine ⟨by decide, by decide, ?_, by decide⟩
  intro u hu _ p hp
  obtain rfl : u = running := by simpa [machineOf] using hu
  have hp' : p < 8 := hp
  show 24 ≠ 16 + p * 1
  omega

theorem witness_ResetClearsTheInstance : (machineOf [running] impulse []).vrfs[0]? = some running := by decide

theorem witness_IdleMachineHoldsItsState : (machineOf [ready] impulse []).ended := by decide

/-- A wait on an idle instance beside a running one, and one on a running instance. -/
theorem witness_WaitPollsStatus :
    ((machineOf [framed, runningElsewhere] impulse [.wait 0]).Inv ∧
        (machineOf [framed, runningElsewhere] impulse [.wait 0]).vrfs[0]? = some framed ∧ framed.busy = false) ∧
      (machineOf [framed, runningElsewhere] impulse [.wait 1]).Inv ∧
        (machineOf [framed, runningElsewhere] impulse [.wait 1]).vrfs[1]? = some runningElsewhere ∧
          runningElsewhere.busy = true :=
  ⟨⟨inv_of_two inv_of_framed inv_of_runningElsewhere (by decide) _, rfl, rfl⟩,
    inv_of_two inv_of_framed inv_of_runningElsewhere (by decide) _, rfl, rfl⟩

/-- A state that meets the invariant and takes a step: a host write, with another instance running. -/
theorem witness_StepKeepsInvariant :
    (machineOf [framed, runningElsewhere] impulse [.regWrite 0 0 4 3#32]).Inv ∧
      (answer (step (machineOf [framed, runningElsewhere] impulse [.regWrite 0 0 4 3#32])) id).isSome = true :=
  ⟨inv_of_two inv_of_framed inv_of_runningElsewhere (by decide) _, by decide⟩

theorem witness_InstanceStepsNeverStop : (machineOf [running, runningElsewhere] impulse []).Inv :=
  inv_of_two inv_of_running inv_of_runningElsewhere (by decide) _

theorem witness_FaultIsSticky :
    let s := machineOf [faulted] [] [.regWrite 0 0x08 4 100#32]
    (answer (step s) id).isSome = true ∧ s.vrfs[0]? = some faulted ∧ faulted.fault = true ∧ nextResets s 0 = false := by
  decide
/-- The last clause: a faulted running instance keeps `Z1`, `Z2` through a write and a sample step, and its commit, with
`IDX` = `LCOUNT`, changes them. -/
theorem witness_FaultIsSticky_running :
    let u := { running with fault := true, fcode := .busyWrite, z1 := 7#16 }
    let w := { finished with fault := true, fcode := .busyWrite }
    answer (step (machineOf [u] impulse [.regWrite 0 0x14 4 5#32])) (fun t => t.vrfs.map (·.z1)) = some [7#16] ∧
      answer (step (machineOf [u] impulse [])) (fun t => t.vrfs.map (fun v => (v.z1, v.idx))) =
          some [(7#16, 1#32)] ∧
        w.z2 ≠ w.w2 ∧
          answer (step (machineOf [w] [] [])) (fun t => t.vrfs.map (fun v => (v.busy, v.z2))) =
            some [(false, w.w2)] := by decide

/-- `PREP` set by `SETUP`, set by `APPLY`, and cleared by reset: what an instance's `PREP` is after the step. -/
theorem witness_PrepChangesOnly :
    (loaded.prep = false ∧
        answer (step (machineOf [loaded] [] [.regWrite 0 0 4 1#32])) (fun t => t.vrfs.map (·.prep)) = some [true]) ∧
      answer (step (machineOf [loaded] [] [.regWrite 0 0 4 3#32])) (fun t => t.vrfs.map (·.prep)) = some [true] ∧
        (ready.prep = true ∧
          answer (step (machineOf [ready] [] [.resetOne 0])) (fun t => t.vrfs.map (·.prep)) = some [false]) :=
  ⟨⟨rfl, rfl⟩, rfl, rfl, rfl⟩

/-- `Z1` and `Z2` changed by a host write of each, by `STEP`, by a commit and by reset. -/
theorem witness_DelayLineChangesOnly :
    answer (step (machineOf [ready] [] [.regWrite 0 0x14 4 5#32])) (fun t => t.vrfs.map (·.z1)) = some [5#16] ∧
      answer (step (machineOf [ready] [] [.regWrite 0 0x18 4 6#32])) (fun t => t.vrfs.map (·.z2)) = some [6#16] ∧
        answer (step (machineOf [ready] [] [.regWrite 0 0 4 2#32])) (fun t => t.vrfs.map (·.z1)) = some [8192#16] ∧
          answer (step (machineOf [finished] [] [])) (fun t => t.vrfs.map (·.z2)) = some [0xFC00#16] ∧
            answer (step (machineOf [{ ready with z1 := 1#16 }] [] [.resetAll])) (fun t => t.vrfs.map (·.z1)) =
              some [0#16] := by decide

/-- A sample changed by the host and by a sample step. -/
theorem witness_SampleMemoryChangesOnly :
    answer (step (machineOf [ready] impulse [.sampleWrite 16 1#16])) (fun t => memGet t.mem 16) = some 1#16 ∧
      answer (step (machineOf [running] impulse []))
          (fun t => (memGet t.mem 16, t.vrfs.map (fun v => (v.idx, v.w1)))) =
        some (8192#16, [(1#32, 8192#16)]) := by decide

theorem witness_StepChangesOneInstance :
    (answer (step (machineOf [running, ready] impulse [])) id).isSome = true ∧
      (answer (step (machineOf [running, ready] impulse [.resetAll])) id).isSome = true := by decide

end Sys2Proof.Tests
end

section
/-! SUPPORT. Laws the proofs about the machine's state share: the decoder's words (R60), the register map read as an
equivalence (R15), what a step makes of one instance, and the run of a register access. -/

namespace Sys2Proof.Machine

variable {s t : State} {u v w : Vrf} {j : Nat}

/-! ### Words and registers -/

/-- R59: a command word is its two fields, `RSV` above `OP`. -/
theorem rsv_append_op (d : Word) : commandRsv d ++ commandOp d = d := by
  unfold commandRsv commandOp
  rw [BitVec.extractLsb'_append_extractLsb'_eq_extractLsb' (Nat.zero_add 4).symm]
  exact BitVec.extractLsb'_eq_self

/-- R60: the `OP` values that select a command are those the encoder gives. -/
theorem op_of_commandOfOp {op : BitVec 4} {i : Instr} (h : commandOfOp op.toNat = some i) : op = encodeOp i := by
  unfold commandOfOp at h
  split at h <;> cases h <;> exact BitVec.eq_of_toNat_eq ‹op.toNat = _›

/-- R60, R98: a word that decodes to a command is that command's word. -/
theorem eq_encode_of_decode {d : Word} {i : Instr} (h : decodeCommand d = .ok i) : d = encode i := by
  unfold decodeCommand at h
  split at h
  · rename_i hr
    split at h <;> cases h
    rename_i hop
    rw [← rsv_append_op d, hr, op_of_commandOfOp hop]
    rfl
  · cases h

/-- R15: the register map and the offsets of the registers are the same table. -/
theorem regAt_eq_some_iff {off : Nat} {r : Reg} : regAt off = some r ↔ off = regOffset r := by
  constructor
  · intro h
    unfold regAt at h
    split at h <;> cases h <;> rfl
  · rintro rfl
    cases r <;> rfl

/-- R63: the 16-bit field of a written word is its low half. -/
theorem assemble16_eq_ofNat (d : Word) : assemble16 d = BitVec.ofNat 16 d.toNat := by
  apply BitVec.eq_of_toNat_eq
  simp [assemble16]

/-- R63: a written 16-bit field reads back zero-extended. -/
theorem readBack16_assemble16 (d : Word) : readBack16 (assemble16 d) = BitVec.ofNat 32 (d.toNat % 65536) := by
  apply BitVec.eq_of_toNat_eq
  simp [readBack16, assemble16]

/-- R30, R97: a write at an offset is the write of the register there; at a reserved offset it does nothing. -/
theorem writeOffset_cases (u : Vrf) (off : Nat) (d : Word) :
    (∃ r, off = regOffset r ∧ writeOffset u off d = writeReg u d r) ∨
      ((∀ r, off ≠ regOffset r) ∧ writeOffset u off d = u) := by
  unfold writeOffset
  split
  · rename_i r hr
    exact .inl ⟨r, regAt_eq_some_iff.1 hr, rfl⟩
  · rename_i hr
    exact .inr ⟨fun r e => by simp [regAt_eq_some_iff.2 e] at hr, rfl⟩

@[simp] theorem writeOffset_busy (u : Vrf) (off : Nat) (d : Word) : (writeOffset u off d).busy = u.busy := by
  obtain ⟨r, -, h⟩ | ⟨-, h⟩ := writeOffset_cases u off d <;> rw [h]
  cases r <;> rfl

@[simp] theorem writeOffset_prep (u : Vrf) (off : Nat) (d : Word) : (writeOffset u off d).prep = u.prep := by
  obtain ⟨r, -, h⟩ | ⟨-, h⟩ := writeOffset_cases u off d <;> rw [h]
  cases r <;> rfl

/-- R21, R97: only a write at the offset of `Z1` changes `Z1`. -/
theorem writeOffset_z1 (u : Vrf) (off : Nat) (d : Word) :
    (writeOffset u off d).z1 = if off = regOffset .z1 then assemble16 d else u.z1 := by
  obtain ⟨r, rfl, h⟩ | ⟨hr, h⟩ := writeOffset_cases u off d <;> rw [h]
  · cases r <;> rfl
  · rw [if_neg (hr .z1)]

/-- R22, R97: only a write at the offset of `Z2` changes `Z2`. -/
theorem writeOffset_z2 (u : Vrf) (off : Nat) (d : Word) :
    (writeOffset u off d).z2 = if off = regOffset .z2 then assemble16 d else u.z2 := by
  obtain ⟨r, rfl, h⟩ | ⟨hr, h⟩ := writeOffset_cases u off d <;> rw [h]
  · cases r <;> rfl
  · rw [if_neg (hr .z2)]

/-- R18 to R26, R63, R64: the value that a writable register other than `CMD` reads back after a write of `d`. -/
theorem readOffset_writeOffset {off : Nat} (u : Vrf) (d : Word) (h4 : off % 4 = 0) (hlo : 0x08 ≤ off)
    (hhi : off ≤ 0x28) :
    readOffset (writeOffset u off d) off =
      if off ≤ 0x1C then BitVec.ofNat 32 (d.toNat % 65536) else d := by
  rw [← readBack16_assemble16]
  obtain rfl | rfl | rfl | rfl | rfl | rfl | rfl | rfl | rfl :
      off = 0x08 ∨ off = 0x0C ∨ off = 0x10 ∨ off = 0x14 ∨ off = 0x18 ∨ off = 0x1C ∨ off = 0x20 ∨ off = 0x24 ∨
        off = 0x28 := by omega
  all_goals rfl

/-! ### Register accesses -/

/-- Two steps that each answer a next state, as a run. -/
theorem runSteps_two {t' : State} (h : step s = .next t) (h' : step t = .next t') : runSteps 2 s = .next t' := by
  simp only [runSteps, h, h']


/-- R97: a host register write at the head of the list is what the step does. -/
theorem step_regWrite {off size : Nat} {d : Word} {rest : List HostOp}
    (h : s.pending = .regWrite j off size d :: rest) :
    step s = hostRegWrite j off size d (s.setPending rest) := by
  simp only [step, nextStep, h, perform]

/-- R96: a host register read at the head of the list is what the step does. -/
theorem step_regRead {off size : Nat} {rest : List HostOp} (h : s.pending = .regRead j off size :: rest) :
    step s = hostRegRead j off size (s.setPending rest) := by
  simp only [step, nextStep, h, perform]

/-- R97: an aligned 32-bit write above `CMD` to a ready instance stores its field. -/
theorem hostRegWrite_ready {off : Nat} (d : Word) (hu : s.vrfs[j]? = some u) (hr : u.ready) (h4 : off % 4 = 0)
    (h0 : off ≠ 0) (hl : off < 0x100) :
    hostRegWrite j off 4 d s = .next ((s.select j).setVrf j (writeOffset u off d)) := by
  simp only [hostRegWrite, accessRefusal_none hu h4 hl, writeSelected, regOffset, h0, if_false]
  exact gateWrite_ready (s := s.select j) _ hu hr.1 hr.2

/-- R96: an aligned 32-bit read in an instance's window gives the host the register. -/
theorem hostRegRead_run {off : Nat} (hu : s.vrfs[j]? = some u) (h4 : off % 4 = 0) (hl : off < 0x100) :
    hostRegRead j off 4 s = .next ((s.select j).observe (.reg j off (readOffset u off))) := by
  simp only [hostRegRead, accessRefusal_none hu h4 hl, hu]

/-- R15, R57: the bus address of an offset falls in that window at that offset. -/
theorem busWindow_busAddress (base j : Nat) {off : Nat} (h : off < windowBytes) :
    busWindow base (busAddress base j off) = some (j, off) := by
  unfold windowBytes at h
  have hsub : busAddress base j off - base = off + windowBytes * j := by unfold busAddress; omega
  have hge : ¬ busAddress base j off < base := by unfold busAddress; omega
  unfold busWindow
  rw [if_neg hge, hsub]
  unfold windowBytes
  simp only [Option.some.injEq, Prod.mk.injEq]
  omega

/-! ### A machine with no busy instance -/

/-- R130: with no instance busy, no instance step is enabled. -/
theorem anyInstanceStep_idle (h : ∀ u ∈ s.vrfs, u.busy = false) : anyInstanceStep s = .next s := by
  have none_busy : busyInstances s = [] := List.eq_nil_iff_forall_not_mem.2 fun j hj => by
    obtain ⟨u, hu, hb⟩ := mem_busyInstances.1 hj
    simp [h u (List.mem_of_getElem? hu)] at hb
  simp only [anyInstanceStep, none_busy]

/-- Every instance of the machine at reset is a reset instance (R39). -/
theorem eq_reset_of_mem_reset (h : u ∈ State.reset.vrfs) : u = Vrf.reset := List.eq_of_mem_replicate h

/-- R39, R96: every register of a reset instance reads 0. -/
theorem readOffset_reset (off : Nat) : readOffset Vrf.reset off = 0#32 := by
  unfold readOffset
  split
  · rename_i r _
    cases r <;> rfl
  · rfl

/-! ### What a step makes of one instance -/

/-- Everything a step can make of instance `j`, from `u` to `v`. -/
inductive InstanceEffect (s : State) (j : Nat) (u : Vrf) : Vrf → Prop where
  | same : InstanceEffect s j u u
  | write (off : Nat) (d : Word) (v : Vrf) (hw : nextWrite s = some (j, off, 4, d))
      (he : WriteEffect s j off d u v) : InstanceEffect s j u v
  | sample (x : Sample) (hb : u.busy = true) (hi : u.idx.toNat < u.lcount.toNat) :
    InstanceEffect s j u (stepWorking u x)
  | commit (hb : u.busy = true) (hi : u.lcount.toNat ≤ u.idx.toNat) : InstanceEffect s j u (commitApply u)
  | reset (hn : nextResets s j = true) : InstanceEffect s j u Vrf.reset

/-- What stands at `j` after one instance of a list was replaced: the old element elsewhere, else the new one. -/
theorem getElem?_set_cases {l : List Vrf} {i j : Nat} {a x v : Vrf} (hi : l[i]? = some a)
    (hv : (l.set i x)[j]? = some v) : (i ≠ j ∧ l[j]? = some v) ∨ (i = j ∧ v = x) := by
  by_cases hij : i = j
  · subst hij
    rw [List.getElem?_set_self (List.getElem?_eq_some_iff.1 hi).1] at hv
    exact .inr ⟨rfl, (Option.some.inj hv).symm⟩
  · rw [List.getElem?_set_ne hij] at hv
    exact .inl ⟨hij, hv⟩

/-- A step that answers a next state had one of the effects above on each instance. -/
theorem step_instance (h : step s = .next t) (hu : s.vrfs[j]? = some u) (hv : t.vrfs[j]? = some v) :
    InstanceEffect s j u v := by
  have atSet : ∀ {i a x}, s.vrfs[i]? = some a → t.vrfs = s.vrfs.set i x →
      (i = j → a = u → InstanceEffect s j u x) → InstanceEffect s j u v := by
    intro i a x ha hset own
    obtain ⟨-, hold⟩ | ⟨rfl, rfl⟩ := getElem?_set_cases ha (hset ▸ hv)
    · obtain rfl := Option.some.inj (hu.symm.trans hold)
      exact .same
    · exact own rfl (Option.some.inj (ha.symm.trans hu))
  obtain ⟨-, he⟩ := step_next h
  generalize hvs : t.vrfs = vs, t.mem = m at he
  cases he with
  | quiet =>
    obtain rfl := Option.some.inj (hu.symm.trans (hvs ▸ hv))
    exact .same
  | write i off d a x hw ha he => exact atSet ha hvs (by rintro rfl rfl; exact .write off d x hw he)
  | sample i a ha hb hi _ => exact atSet ha hvs (by rintro rfl rfl; exact .sample _ hb hi)
  | commit i a ha hb hi => exact atSet ha hvs (by rintro rfl rfl; exact .commit hb hi)
  | resetOne i a ha hn => exact atSet ha hvs (by rintro rfl rfl; exact .reset hn)
  | resetAll hn =>
    rw [hvs, List.getElem?_map, hu] at hv
    obtain rfl := Option.some.inj hv
    exact .reset (hn j)
  | hostSample =>
    obtain rfl := Option.some.inj (hu.symm.trans (hvs ▸ hv))
    exact .same

/-! ### Running frames under a step -/

/-- If `v` runs only where `u` ran, over the same latched frame, what was apart from `u` is apart from `v`. -/
theorem framesApart_of_sameFrame (hb : v.busy = true → u.busy = true) (hf : latchedFrame v = latchedFrame u)
    (h : framesApart u w) : framesApart v w := fun hv hw => hf ▸ h (hb hv) hw

/-- An idle instance is apart from every other. -/
theorem framesApart_of_idle (hb : v.busy = false) : framesApart v w := fun hv => absurd hv (by simp [hb])

@[simp] theorem latchedFrame_raiseFault (c : FCode) (u : Vrf) : latchedFrame (raiseFault c u) = latchedFrame u := by
  simp [latchedFrame]

/-- R49: what a host write makes of an instance stays apart from every other running frame; the start of an `APPLY` by
its overlap check, every other effect because it starts nothing. -/
theorem writeEffect_apart {off i : Nat} {d : Word} (h : s.Inv) (hu : s.vrfs[j]? = some u)
    (he : WriteEffect s j off d u v) (hij : i ≠ j) (hw : s.vrfs[i]? = some w) : framesApart v w := by
  have old : framesApart u w := h.apart hij.symm hu hw
  cases he with
  | same => exact old
  | fault c => exact framesApart_of_sameFrame (by simp) (latchedFrame_raiseFault c u) old
  | stored hr => exact framesApart_of_idle (by simp [hr.1])
  | setup hr => exact framesApart_of_idle (by simp [hr.1])
  | step hr => exact framesApart_of_idle (by simp [hr.1])
  | apply _ _ _ _ hfree => exact fun _ hb => hfree i w hij hw hb

/-! ### The invariant under a step -/

/-- The instances' part of the invariant of the machine. -/
structure InstancesInv (memWords : Nat) (vs : List Vrf) : Prop where
  nonempty : vs ≠ []
  each : ∀ u ∈ vs, u.Inv memWords
  disjoint : vs.Pairwise framesApart

theorem State.Inv.instancesInv (h : s.Inv) : InstancesInv s.plat.memWords s.vrfs := ⟨h.instances, h.each, h.disjoint⟩

/-- Replacing an instance by one that meets its own invariant and stays apart from the others keeps the invariant. -/
theorem InstancesInv.set {memWords : Nat} {vs : List Vrf} (h : InstancesInv memWords vs) (hv : v.Inv memWords)
    (ha : ∀ i w, i ≠ j → vs[i]? = some w → framesApart v w) : InstancesInv memWords (vs.set j v) where
  nonempty := by simpa using h.nonempty
  each := fun u hu => by
    rcases List.mem_or_eq_of_mem_set hu with hu | rfl
    · exact h.each u hu
    · exact hv
  disjoint := pairwise_set_framesApart h.disjoint ha

/-- Reset instances meet the invariant: each is idle and cleared (R39, R133). -/
theorem instancesInv_replicate_reset (memWords : Nat) {n : Nat} (hn : n ≠ 0) :
    InstancesInv memWords (List.replicate n Vrf.reset) where
  nonempty := by simpa using hn
  each := fun u hu => List.eq_of_mem_replicate hu ▸ reset_inv memWords
  disjoint := List.pairwise_replicate.2 (.inr (framesApart_of_idle rfl))

/-- Every effect of a step keeps the instances' part of the invariant. -/
theorem stepEffect_keeps_instances {vs : List Vrf} {m : Memory} (h : s.Inv) (he : StepEffect s vs m) :
    InstancesInv s.plat.memWords vs := by
  cases he with
  | quiet => exact h.instancesInv
  | write j off d u v _ hu he =>
    exact h.instancesInv.set (writeEffect_inv (h.at hu) he) fun _ _ hij hw => writeEffect_apart h hu he hij hw
  | sample j u hu hb hi =>
    exact h.instancesInv.set (stepWorking_inv _ hb hi (h.at hu)) fun _ _ hij hw =>
      framesApart_of_sameFrame (u := u) id rfl (h.apart hij.symm hu hw)
  | commit j u hu _ hi =>
    exact h.instancesInv.set (commitApply_inv hi (h.at hu)) fun _ _ _ _ => framesApart_of_idle rfl
  | resetOne j u =>
    exact h.instancesInv.set (reset_inv _) fun _ _ _ _ => framesApart_of_idle rfl
  | resetAll =>
    rw [List.map_const']
    exact instancesInv_replicate_reset _ (by simpa using h.instances)
  | hostSample => exact h.instancesInv

/-- Every effect of a step keeps sample memory canonical and inside `MEM_WORDS` (R41): a sample is written only at an
address that exists. -/
theorem stepEffect_keeps_memory {vs : List Vrf} {m : Memory} (h : s.Inv) (he : StepEffect s vs m) :
    m.wf ∧ ∀ c ∈ m, c.1 < s.plat.memWords := by
  have write : ∀ a v, a < s.plat.memWords → (memSet s.mem a v).wf ∧ ∀ c ∈ memSet s.mem a v, c.1 < s.plat.memWords :=
    fun a v ha => ⟨memSet_wf h.memWf a v, memSet_bound h.memBound ha⟩
  cases he with
  | quiet => exact ⟨h.memWf, h.memBound⟩
  | write => exact ⟨h.memWf, h.memBound⟩
  | sample _ _ _ _ _ ha => exact write _ _ ha
  | commit => exact ⟨h.memWf, h.memBound⟩
  | resetOne => exact ⟨h.memWf, h.memBound⟩
  | resetAll => exact ⟨h.memWf, h.memBound⟩
  | hostSample a v _ ha => exact write a v ha

end Sys2Proof.Machine
end

section
/-! CERTIFICATES. The statements about the machine's state (10_state.md), settled. -/

namespace Sys2Proof.Machine

/-- Settles O46: every instance is reset, hence idle, and no sample is listed. -/
theorem invariantAtReset : Obligations.InvariantAtReset := by
  have vrfs := instancesInv_replicate_reset Config.memWords (Nat.succ_ne_zero Config.moreInstances)
  exact
    { memWords := ⟨Nat.succ_pos _, Config.memWordsLessOne.isLt⟩
      instances := vrfs.nonempty
      memWf := ⟨List.Pairwise.nil, by simp [State.reset]⟩
      memBound := by simp [State.reset]
      each := vrfs.each
      disjoint := vrfs.disjoint }

/-- Settles O47: a case analysis over the effects of a step, on sample memory and on the instances apart. -/
theorem stepKeepsInvariant : Obligations.StepKeepsInvariant := by
  intro s t h hstep
  obtain ⟨hplat, he⟩ := step_next hstep
  obtain ⟨hwf, hbound⟩ := stepEffect_keeps_memory h he
  have vrfs := stepEffect_keeps_instances h he
  rw [← hplat] at hbound vrfs
  exact ⟨hplat ▸ h.memWords, vrfs.nonempty, hwf, hbound, vrfs.each, vrfs.disjoint⟩

/-- Settles O5: the window and offset the bus address falls in are the given ones, for reads and for writes. -/
theorem busAddressReachesWindow : Obligations.BusAddressReachesWindow := by
  intro s j off size d rest hoff
  have window : busWindow s.plat.filtBase (s.plat.filtBase + 0x100 * j + off) = some (j, off) :=
    busWindow_busAddress s.plat.filtBase j hoff
  constructor
  · simp only [step, nextStep, perform, hostBusWrite, State.setPending_plat, window]
    rfl
  · simp only [step, nextStep, perform, hostBusRead, State.setPending_plat, window]
    rfl

/-- Settles O11: the write stores the field, and the read that follows returns it (`readOffset_writeOffset`). -/
theorem writtenRegisterReadsBack : Obligations.WrittenRegisterReadsBack := by
  intro s j off d rest u hpend h4 hlo hhi hu hb hf
  let s₁ := ((s.setPending (.regRead j off 4 :: rest)).select j).setVrf j (writeOffset u off d)
  have first : step s = .next s₁ := by
    rw [step_regWrite hpend]
    exact hostRegWrite_ready d hu ⟨hb, hf⟩ h4 (by omega) (by omega)
  have stored : s₁.vrfs[j]? = some (writeOffset u off d) :=
    List.getElem?_set_self (List.getElem?_eq_some_iff.1 hu).1
  have second : step s₁ = .next (((s₁.setPending rest).select j).observe
      (.reg j off (readOffset (writeOffset u off d) off))) := by
    rw [step_regRead rfl]
    exact hostRegRead_run stored h4 (by omega)
  refine ⟨_, runSteps_two first second, rfl, ?_⟩
  rw [State.observe_seen, readOffset_writeOffset u d h4 hlo hhi]
  rfl

/-- Settles O50: of everything a step can make of an instance, only a reset clears `PREP`, and only `SETUP` and
`APPLY`, by their words, set it. -/
theorem prepChangesOnly : Obligations.PrepChangesOnly := by
  intro s t j u v hstep hu hv hne
  cases step_instance hstep hu hv with
  | same => exact absurd rfl hne
  | write off d v hw he =>
    cases he with
    | same => exact absurd rfl hne
    | fault c => exact absurd (raiseFault_prep u c) hne
    | stored => exact absurd (writeOffset_prep u off d) hne
    | setup _ ho hd =>
      obtain rfl := eq_encode_of_decode hd
      exact .inr ⟨by simpa using hne, .inl (ho ▸ hw)⟩
    | step => exact absurd rfl hne
    | apply _ ho hd =>
      obtain rfl := eq_encode_of_decode hd
      exact .inr ⟨by simpa using hne, .inr (ho ▸ hw)⟩
  | sample => exact absurd rfl hne
  | commit => exact absurd rfl hne
  | reset hn => exact .inl ⟨by simpa [Vrf.reset] using hne, hn⟩

/-- Settles O51: of everything a step can make of an instance, only the named four change its delay line. -/
theorem delayLineChangesOnly : Obligations.DelayLineChangesOnly := by
  intro s t j u v hstep hu hv
  cases step_instance hstep hu hv with
  | same => exact ⟨absurd rfl, absurd rfl⟩
  | write off d v hw he =>
    cases he with
    | same => exact ⟨absurd rfl, absurd rfl⟩
    | fault c => exact ⟨absurd (raiseFault_z1 u c), absurd (raiseFault_z2 u c)⟩
    | stored =>
      rw [writeOffset_z1, writeOffset_z2, assemble16_eq_ofNat]
      constructor
      · intro hne
        obtain ⟨ho, -⟩ := ite_ne_right_iff.1 hne
        exact .inr (.inl ⟨d, by rw [hw, ho]; rfl, if_pos ho⟩)
      · intro hne
        obtain ⟨ho, -⟩ := ite_ne_right_iff.1 hne
        exact .inr (.inl ⟨d, by rw [hw, ho]; rfl, if_pos ho⟩)
    | setup => exact ⟨absurd rfl, absurd rfl⟩
    | step _ ho hd =>
      obtain rfl := eq_encode_of_decode hd
      exact ⟨fun _ => .inr (.inr (.inl (ho ▸ hw))), fun _ => .inr (.inr (.inl (ho ▸ hw)))⟩
    | apply => exact ⟨absurd rfl, absurd rfl⟩
  | sample => exact ⟨absurd rfl, absurd rfl⟩
  | commit hb hi =>
    exact ⟨fun _ => .inr (.inr (.inr ⟨hb, hi, rfl, rfl⟩)), fun _ => .inr (.inr (.inr ⟨hb, hi, rfl, rfl⟩))⟩
  | reset hn => exact ⟨fun _ => .inl hn, fun _ => .inl hn⟩

/-- Settles O53: every effect of a step but the platform reset replaces at most one instance. -/
theorem stepChangesOneInstance : Obligations.StepChangesOneInstance := by
  intro s t hstep
  obtain ⟨hplat, he⟩ := step_next hstep
  refine ⟨hplat, ?_⟩
  generalize t.vrfs = vs, t.mem = m at he ⊢
  have replaced : ∀ j v, (s.vrfs.set j v).length = s.vrfs.length ∧
      ((∃ j' : Nat, ∀ i, i ≠ j' → (s.vrfs.set j v)[i]? = s.vrfs[i]?) ∨ ∀ i, nextResets s i = true) :=
    fun j v => ⟨List.length_set, .inl ⟨j, fun _ hi => List.getElem?_set_ne hi.symm⟩⟩
  cases he with
  | quiet => exact ⟨rfl, .inl ⟨0, fun _ _ => rfl⟩⟩
  | write j _ _ _ v => exact replaced j v
  | sample j => exact replaced j _
  | commit j => exact replaced j _
  | resetOne j => exact replaced j _
  | resetAll hn => exact ⟨List.length_map _, .inr hn⟩
  | hostSample => exact ⟨rfl, .inl ⟨0, fun _ _ => rfl⟩⟩

/-- Settles O43: every instance is `Vrf.reset`, whose registers read 0; nothing is pending and no instance is busy, so
no step is enabled. -/
theorem resetStateIsQuiet : Obligations.ResetStateIsQuiet := by
  refine ⟨fun u hu off _ => ?_, fun u hu => ?_, ?_⟩
  · rw [eq_reset_of_mem_reset hu, readOffset_reset]
  · rw [eq_reset_of_mem_reset hu]
    exact ⟨rfl, rfl, rfl, rfl, rfl⟩
  · exact anyInstanceStep_idle fun u hu => by rw [eq_reset_of_mem_reset hu]; rfl

end Sys2Proof.Machine
end

section
/-! SUPPORT. Laws the proofs about sample memory share: the refusal of a narrow or misaligned access (R55),
a host sample access as a step (R44, R48), the start of a checked `APPLY` (R102, R49), and what one step of a running
`APPLY` makes of its instance and of sample memory (R104, R106). -/

namespace Sys2Proof.Machine

variable {s : State} {u v : Vrf} {j : Nat}

/-! ### Host accesses -/

/-- R55: an access that is not 32 bits wide at a multiple of 4 is refused before its window is looked at. -/
theorem accessRefusal_subword {off size : Nat} (s : State) (j : Nat) (h : size ≠ 4 ∨ off % 4 ≠ 0) :
    accessRefusal s j off size = some .subwordRegisterAccess := by
  have notWf : registerAccessWf off size = false := by
    simpa [registerAccessWf, accessIsWord, accessIsAligned, imp_iff_not_or] using h
  rw [accessRefusal, if_pos notWf]

/-- R48: an address is outside the running frames exactly when no running `APPLY` has it. -/
theorem inRunningFrame_false_iff (s : State) (a : Nat) :
    inRunningFrame s a = false ↔
      ∀ u ∈ s.vrfs, u.busy = true → ∀ p < u.lcount.toNat, a ≠ frameAddr (latchedFrame u) p := by
  rw [Bool.eq_false_iff, Ne, inRunningFrame_iff]
  simp only [not_exists, not_and, ne_eq]

/-- R44, R48: a host read of an existing sample at the head of the list. -/
theorem step_sampleRead {a : Nat} {rest : List HostOp} (h : s.pending = .sampleRead a :: rest)
    (ha : a < s.plat.memWords) :
    step s =
      if inRunningFrame s a then .refused .hostFrameAccessWhileBusy
      else .next ((s.setPending rest).observe (.sample a (memGet s.mem a))) := by
  simp only [step, nextStep, h, perform]
  exact hostSampleRead_run (s := s.setPending rest) ha

/-- R44, R48: a host write of an existing sample at the head of the list. -/
theorem step_sampleWrite {a : Nat} {w : Sample} {rest : List HostOp} (h : s.pending = .sampleWrite a w :: rest)
    (ha : a < s.plat.memWords) :
    step s =
      if inRunningFrame s a then .refused .hostFrameAccessWhileBusy
      else .next ((s.setPending rest).setMem (memSet s.mem a w)) := by
  simp only [step, nextStep, h, perform]
  exact hostSampleWrite_run (s := s.setPending rest) w ha

/-! ### The start of an `APPLY` -/

/-- R102: the checks of `APPLY` accept exactly the frames the statements call accepted. -/
theorem applyCheck_hostFrame_iff (memWords : Nat) (u : Vrf) :
    applyCheck memWords (hostFrame u) = none ↔ Spec.frameOk memWords u :=
  applyCheck_none_iff memWords (hostFrame u)

/-- R49: no running frame overlaps the one in the host's registers exactly when no address of it is taken. -/
theorem overlapsRunning_hostFrame_iff (s : State) (j : Nat) (u : Vrf) :
    overlapsRunning s j (hostFrame u) = false ↔ Spec.frameFree s j u := by
  simp only [overlapsRunning_false_iff, framesOverlap_false_iff]
  rfl

/-- R49, R102, R103: an `APPLY` whose frame passed the checks starts, unless the frame meets that of a running one. -/
theorem exec_apply_accepted (hu : s.vrfs[s.sel]? = some u) (hr : u.ready)
    (hc : applyCheck s.plat.memWords (hostFrame u) = none) :
    exec .apply s =
      if overlapsRunning s s.sel (hostFrame u) then .refused .overlappingFrames
      else .next (s.setVrf s.sel (startApply u)) := by
  refine (gateWrite_ready _ hu hr.1 hr.2).trans ?_
  simp only [hc]

/-! ### One step of a running `APPLY` -/

/-- R42, R104: the address of the sample a running `APPLY` takes next. -/
def nextSampleAddr (u : Vrf) : Nat := frameAddr (latchedFrame u) u.idx.toNat

/-- R104, R106: a running instance after its own step, a sample step while `IDX` is below `LCOUNT` and else the
commit. -/
def advance (u : Vrf) (m : Memory) : Vrf :=
  if u.idx.toNat < u.lcount.toNat then stepWorking u (memGet m (nextSampleAddr u)) else commitApply u

/-- R104, R106: sample memory after that step; only a sample step writes. -/
def advanceMem (u : Vrf) (m : Memory) : Memory :=
  if u.idx.toNat < u.lcount.toNat then memSet m (nextSampleAddr u) (advance u m).w1 else m

theorem advanceMem_sample (hi : u.idx.toNat < u.lcount.toNat) (m : Memory) :
    advanceMem u m = memSet m (nextSampleAddr u) (advance u m).w1 := if_pos hi

theorem advanceMem_commit (hi : ¬ u.idx.toNat < u.lcount.toNat) (m : Memory) : advanceMem u m = m := if_neg hi

/-- R104, R106: the machine after the step of instance `j`, whose state is `u`. -/
def State.advanceAt (s : State) (j : Nat) (u : Vrf) : State :=
  (s.setMem (advanceMem u s.mem)).setVrf j (advance u s.mem)

@[simp] theorem State.advanceAt_vrfs (s : State) (j : Nat) (u : Vrf) :
    (s.advanceAt j u).vrfs = s.vrfs.set j (advance u s.mem) := rfl
@[simp] theorem State.advanceAt_mem (s : State) (j : Nat) (u : Vrf) :
    (s.advanceAt j u).mem = advanceMem u s.mem := rfl
@[simp] theorem State.advanceAt_plat (s : State) (j : Nat) (u : Vrf) : (s.advanceAt j u).plat = s.plat := rfl

/-- R105: the step of a running `APPLY` whose next sample exists. -/
theorem instanceStep_advanceAt (hu : s.vrfs[j]? = some u) (hb : u.busy = true)
    (ha : u.idx.toNat < u.lcount.toNat → nextSampleAddr u < s.plat.memWords) :
    instanceStep j s = .next (s.advanceAt j u) := by
  unfold State.advanceAt
  by_cases hi : u.idx.toNat < u.lcount.toNat
  · simp only [advanceMem_sample hi, advance, if_pos hi]
    exact instanceStep_sample hu hb hi (ha hi)
  · simp only [advanceMem_commit hi, advance, if_neg hi]
    exact instanceStep_commit hu hb (Nat.le_of_not_lt hi)

/-- R47: two running instances do not take the same sample next. -/
def NextSamplesApart (u v : Vrf) : Prop :=
  u.idx.toNat < u.lcount.toNat → v.idx.toNat < v.lcount.toNat → nextSampleAddr u ≠ nextSampleAddr v

theorem NextSamplesApart.symm (h : NextSamplesApart u v) : NextSamplesApart v u := fun hv hu => (h hu hv).symm

/-- R49: instances with disjoint running frames do not take the same sample next. -/
theorem nextSamplesApart_of_framesApart (h : framesApart u v) (hu : u.busy = true) (hv : v.busy = true) :
    NextSamplesApart u v :=
  fun hi hj => (framesOverlap_false_iff _ _).1 (h hu hv) _ hi _ hj

/-- A step writes no sample but the one it takes. -/
theorem memGet_advanceMem_other (m : Memory) {b : Nat}
    (h : v.idx.toNat < v.lcount.toNat → b ≠ nextSampleAddr v) : memGet (advanceMem v m) b = memGet m b := by
  by_cases hi : v.idx.toNat < v.lcount.toNat
  · rw [advanceMem_sample hi, memGet_memSet_other m _ (h hi)]
  · rw [advanceMem_commit hi]

/-- R47: a step of an instance that takes another sample is not seen by the step of this one. -/
theorem advance_advanceMem (m : Memory) (h : NextSamplesApart u v) : advance u (advanceMem v m) = advance u m := by
  by_cases hi : u.idx.toNat < u.lcount.toNat
  · simp only [advance, if_pos hi, memGet_advanceMem_other m (h hi)]
  · simp only [advance, if_neg hi]

/-- R47: the writes of steps that take different samples commute. -/
theorem advanceMem_comm {m : Memory} (hm : m.wf) (h : NextSamplesApart u v) :
    advanceMem u (advanceMem v m) = advanceMem v (advanceMem u m) := by
  by_cases hi : u.idx.toNat < u.lcount.toNat
  · by_cases hj : v.idx.toNat < v.lcount.toNat
    · rw [advanceMem_sample hi (advanceMem v m), advanceMem_sample hj (advanceMem u m), advance_advanceMem m h,
        advance_advanceMem m h.symm, advanceMem_sample hi m, advanceMem_sample hj m]
      exact memSet_comm hm _ _ (h hi hj).symm
    · simp only [advanceMem_commit hj]
  · simp only [advanceMem_commit hi]

/-- R47, R52: the steps of two instances that take different samples lead to one state in either order. -/
theorem State.advanceAt_comm {i : Nat} (hm : s.mem.wf) (hij : i ≠ j) (h : NextSamplesApart u v) :
    (s.advanceAt i u).advanceAt j v = (s.advanceAt j v).advanceAt i u := by
  simp only [State.advanceAt, State.setVrf, State.setMem, advance_advanceMem s.mem h, advance_advanceMem s.mem h.symm,
    advanceMem_comm hm h, List.set_comm _ _ hij]

end Sys2Proof.Machine
end

section
/-! CERTIFICATES. The statements about sample memory and the accesses to it (20_memory.md), settled. -/

namespace Sys2Proof.Machine

/-- Settles O12: the width and the alignment are looked at before anything else. -/
theorem subwordAccessRefused : Obligations.SubwordAccessRefused := by
  intro s j off size d rest h
  constructor
  · rw [step_regRead rfl]
    simp only [hostRegRead, accessRefusal_subword _ j h]
  · rw [step_regWrite rfl]
    simp only [hostRegWrite, accessRefusal_subword _ j h]

/-- Settles O21: the frame passes the checks, so the overlap check that follows them decides. -/
theorem overlappingApplyRefused : Obligations.OverlappingApplyRefused := by
  intro s u hu hb hf hok hnotFree
  have overlaps : overlapsRunning s s.sel (hostFrame u) = true := by
    rwa [← overlapsRunning_hostFrame_iff, Bool.not_eq_false] at hnotFree
  rw [exec_apply_accepted hu ⟨hb, hf⟩ ((applyCheck_hostFrame_iff _ u).2 hok), if_pos overlaps]

/-- Settles O30: an accepted frame ends below `MEM_WORDS` and has no stride 0 where it has two addresses. -/
theorem frameAddressesDistinct : Obligations.FrameAddressesDistinct :=
  fun _ _ h _ hp => ⟨frameAddr_lt h hp, fun _ hq hpq e => hpq (frameAddr_inj h hp hq e)⟩

/-- Settles O39: the two instances take different samples, so neither step sees the other and their writes commute. -/
theorem instanceStepsCommute : Obligations.InstanceStepsCommute := by
  intro s i j u v hs hij hu hv hub hvb
  have apart : NextSamplesApart u v := nextSamplesApart_of_framesApart (hs.apart hij hu hv) hub hvb
  have hv' : (s.advanceAt i u).vrfs[j]? = some v := (List.getElem?_set_ne hij).trans hv
  have hu' : (s.advanceAt j v).vrfs[i]? = some u := (List.getElem?_set_ne hij.symm).trans hu
  have addrU := hs.nextAddr hu hub
  have addrV := hs.nextAddr hv hvb
  refine ⟨s.advanceAt i u, s.advanceAt j v, (s.advanceAt i u).advanceAt j v, instanceStep_advanceAt hu hub addrU,
    instanceStep_advanceAt hv' hvb addrV, instanceStep_advanceAt hv hvb addrV, ?_⟩
  rw [State.advanceAt_comm hs.memWf hij apart]
  exact instanceStep_advanceAt hu' hub addrU

/-- Settles O40: the address is one of the running frame's, and both accesses look at the frames before they act. -/
theorem runningFrameIsTheInstances : Obligations.RunningFrameIsTheInstances := by
  intro s j p a w u rest hu hb hp haddr ha
  have inFrame : ∀ ops, inRunningFrame { s with pending := ops } a = true := fun ops =>
    (inRunningFrame_iff _ a).2 ⟨u, List.mem_of_getElem? hu, hb, p, hp, haddr⟩
  constructor
  · exact (step_sampleRead (s := { s with pending := _ }) rfl ha).trans (if_pos (inFrame _))
  · exact (step_sampleWrite (s := { s with pending := _ }) rfl ha).trans (if_pos (inFrame _))

/-- Settles O41: the write replaces that one sample, and the read that follows returns it (`memGet_memSet_same`). -/
theorem hostSampleWriteReadsBack : Obligations.HostSampleWriteReadsBack := by
  intro s a w rest hwf ha hfree hpend
  let s₁ := (s.setPending (.sampleRead a :: rest)).setMem (memSet s.mem a w)
  have free : ¬ inRunningFrame s a = true := Bool.eq_false_iff.1 ((inRunningFrame_false_iff s a).2 hfree)
  have first : step s = .next s₁ := (step_sampleWrite hpend ha).trans (if_neg free)
  have second : step s₁ = .next ((s₁.setPending rest).observe (.sample a (memGet s₁.mem a))) :=
    (step_sampleRead (s := s₁) rfl ha).trans (if_neg free)
  have readsBack : memGet (memSet s.mem a w) a = w := memGet_memSet_same hwf a w
  refine ⟨memSet s.mem a w, ?_, readsBack, fun b hb => memGet_memSet_other s.mem w hb⟩
  rw [runSteps_two first second, State.setMem_mem, readsBack]
  rfl

/-- Settles O52: of everything a step can do, only a sample step and a host sample write replace a sample, each at its
own address. -/
theorem sampleMemoryChangesOnly : Obligations.SampleMemoryChangesOnly := by
  intro s t a hstep hne
  obtain ⟨-, he⟩ := step_next hstep
  generalize t.vrfs = vs, t.mem = m at he hne ⊢
  have written : ∀ b w, memGet (memSet s.mem b w) a ≠ memGet s.mem a → a = b := fun b w h =>
    by_contra fun hab => h (memGet_memSet_other s.mem w hab)
  cases he with
  | quiet => exact absurd rfl hne
  | write => exact absurd rfl hne
  | sample j u hu hb hi =>
    obtain rfl := written _ _ hne
    exact .inr ⟨j, u, _, hu, hb, hi, rfl, List.getElem?_set_self (List.getElem?_eq_some_iff.1 hu).1, rfl, rfl,
      fun hwf => memGet_memSet_same hwf _ _⟩
  | commit => exact absurd rfl hne
  | resetOne => exact absurd rfl hne
  | resetAll => exact absurd rfl hne
  | hostSample b w hh =>
    obtain rfl := written b w hne
    exact .inl ⟨w, hh, fun hwf => memGet_memSet_same hwf a w⟩

end Sys2Proof.Machine
end

section
/-! SUPPORT. Laws the proofs about the encoding share: the fields of a command word and the two kinds of illegal words
as facts on numbers (R59 to R61), a write to `CMD` (R98), the `STATUS` word as a number (R17), and a wait as a step
(R68). -/

namespace Sys2Proof.Machine

variable {s : State} {u : Vrf} {j : Nat} {d : Word}

/-! ### Command words -/

/-- R59: `RSV` is the word without its low four bits. -/
theorem toNat_commandRsv (d : Word) : (commandRsv d).toNat = d.toNat / 16 := by
  rw [commandRsv, BitVec.extractLsb'_toNat, Nat.shiftRight_eq_div_pow]
  omega

/-- R59: `OP` is the low four bits. -/
theorem toNat_commandOp (d : Word) : (commandOp d).toNat = d.toNat % 16 := by
  rw [commandOp, BitVec.extractLsb'_toNat, Nat.shiftRight_zero]

theorem commandRsv_eq_zero_iff (d : Word) : commandRsv d = 0#28 ↔ d.toNat / 16 = 0 := by
  rw [BitVec.toNat_eq, toNat_commandRsv, BitVec.toNat_ofNat, Nat.zero_mod]

/-- R60: `OP` selects no command exactly from 4 on. -/
theorem commandOfOp_eq_none_iff : ∀ op : Nat, commandOfOp op = none ↔ 4 ≤ op
  | 0 | 1 | 2 | 3 => by decide
  | n + 4 => iff_of_true rfl (Nat.le_add_left 4 n)

/-- R60: the decoder reads back the word of every command. -/
theorem decodeCommand_encode (i : Instr) : decodeCommand (encode i) = .ok i := by
  cases i <;> rfl

/-- R61: the reserved field alone makes a word illegal. -/
theorem decodeCommand_eq_reservedBits_iff : decodeCommand d = .error .reservedBits ↔ d.toNat / 16 ≠ 0 := by
  rw [Ne, ← commandRsv_eq_zero_iff]
  unfold decodeCommand
  split
  case isTrue hr => exact iff_of_false (by split <;> nofun) (not_not_intro hr)
  case isFalse hr => exact iff_of_true rfl hr

/-- R61: with the reserved field 0, an `OP` from 4 on makes a word illegal. -/
theorem decodeCommand_eq_reservedOp_iff :
    decodeCommand d = .error .reservedOp ↔ d.toNat / 16 = 0 ∧ 4 ≤ d.toNat % 16 := by
  rw [← commandRsv_eq_zero_iff, ← toNat_commandOp, ← commandOfOp_eq_none_iff]
  unfold decodeCommand
  split
  case isTrue hr =>
    split
    case h_1 i hop => exact iff_of_false nofun fun h => nomatch hop.symm.trans h.2
    case h_2 hop => exact iff_of_true rfl ⟨hr, hop⟩
  case isFalse hr => exact iff_of_false nofun fun h => hr h.1

/-- R61: the illegal words are those of the two kinds. -/
theorem decodeCommand_illegal_iff :
    (∃ e, decodeCommand d = .error e) ↔ d.toNat / 16 ≠ 0 ∨ 4 ≤ d.toNat % 16 := by
  constructor
  · rintro ⟨e, he⟩
    cases e with
    | reservedBits => exact .inl (decodeCommand_eq_reservedBits_iff.1 he)
    | reservedOp => exact .inr (decodeCommand_eq_reservedOp_iff.1 he).2
  · intro h
    by_cases hr : d.toNat / 16 = 0
    · exact ⟨_, decodeCommand_eq_reservedOp_iff.2 ⟨hr, h.resolve_left (not_not_intro hr)⟩⟩
    · exact ⟨_, decodeCommand_eq_reservedBits_iff.2 hr⟩

/-! ### Writes to `CMD` -/

/-- R97, R98: a 32-bit write at offset 0 of an existing instance is a write to `CMD`. -/
theorem hostRegWrite_cmd (d : Word) (hu : s.vrfs[j]? = some u) :
    hostRegWrite j 0 4 d s = writeCommand d (s.select j) := by
  simp only [hostRegWrite, accessRefusal_none hu (Nat.zero_mod 4) (by decide), writeSelected, regOffset, if_true]

/-- R61, R98: a word that does not decode raises `ILLEGAL_CMD` on a ready instance. -/
theorem writeCommand_illegal (hu : s.vrfs[s.sel]? = some u) (hr : u.ready) {e : IllegalWord}
    (hd : decodeCommand d = .error e) : writeCommand d s = takeFault .illegalCmd u s := by
  simp only [writeCommand, hd]
  exact gateWrite_ready _ hu hr.1 hr.2

/-! ### `STATUS` -/

/-- An append as a number: its low part is the remainder by `2 ^ n`, its high part the quotient. -/
theorem toNat_append_eq_add {m n : Nat} (a : BitVec m) (b : BitVec n) :
    (a ++ b).toNat = a.toNat * 2 ^ n + b.toNat := by
  rw [BitVec.toNat_append, ← Nat.shiftLeft_add_eq_or_of_lt b.isLt, Nat.shiftLeft_eq]

/-- R116: the bits of a fault code are its number. -/
theorem toNat_fcodeBits (c : FCode) : (fcodeBits c).toNat = Spec.faultNumber c := by
  cases c <;> rfl

/-- R17: `STATUS` as a number, `FCODE` from bit 8 on and below it `PREP`, `FAULT` and `BUSY`. -/
theorem toNat_statusWord (u : Vrf) :
    (statusWord u).toNat =
      256 * Spec.faultNumber u.fcode + 4 * u.prep.toNat + 2 * u.fault.toNat + u.busy.toNat := by
  simp only [statusWord, toNat_append_eq_add, toNat_fcodeBits, flagBit, BitVec.toNat_ofBool, BitVec.toNat_ofNat]
  omega

/-- R17, R96: a read of `STATUS` returns the word the statements name. -/
theorem readOffset_status (u : Vrf) : readOffset u (regOffset .status) = Spec.readValue u 0x04 :=
  BitVec.eq_of_toNat_eq <| by
    have h := toNat_statusWord u
    have lt := (statusWord u).isLt
    rw [h] at lt
    exact h.trans (Nat.mod_eq_of_lt lt).symm

/-! ### Waiting -/

/-- R68: a wait at the head of the list is what the step does. -/
theorem step_wait {rest : List HostOp} (h : s.pending = .wait j :: rest) : step s = hostWait j rest s := by
  simp only [step, nextStep, h, perform]

/-- R68: the poll of an idle instance is a read of its `STATUS`, and the wait is over. -/
theorem hostWait_idle (rest : List HostOp) (hu : s.vrfs[j]? = some u) (hb : u.busy = false) :
    hostWait j rest s =
      .next (((s.setPending rest).select j).observe (.reg j 0x04 (readOffset u (regOffset .status)))) := by
  simp only [hostWait, hu, hb, Bool.false_eq_true, if_false]
  exact hostRegRead_run (s := s.setPending rest) hu (by decide) (by decide)

/-- R68: the poll of a busy instance lets an instance step go by. -/
theorem hostWait_busy (rest : List HostOp) (hu : s.vrfs[j]? = some u) (hb : u.busy = true) :
    hostWait j rest s = anyInstanceStep s := by
  simp only [hostWait, hu, hb, if_true]

/-- R42, R105: in a state of the invariant with an instance busy, a free instance step is the step of some busy
instance, and it does not stop. -/
theorem anyInstanceStep_run (hs : s.Inv) (hu : s.vrfs[j]? = some u) (hb : u.busy = true) :
    ∃ i v c, s.vrfs[i]? = some v ∧ v.busy = true ∧ instanceStep i s = .next (s.advanceAt i v) ∧
      anyInstanceStep s = .next (({ s with choices := c } : State).advanceAt i v) := by
  have someBusy : busyInstances s ≠ [] := List.ne_nil_of_mem (mem_busyInstances.2 ⟨u, hu, hb⟩)
  obtain ⟨i, v, c, hv, hvb, hstep⟩ := anyInstanceStep_busy someBusy
  have addr := hs.nextAddr hv hvb
  exact ⟨i, v, c, hv, hvb, instanceStep_advanceAt hv hvb addr,
    hstep.trans (instanceStep_advanceAt (s := { s with choices := c }) hv hvb addr)⟩

end Sys2Proof.Machine
end

section
/-! CERTIFICATES. The statements about the encoding (30_encoding.md), settled. -/

namespace Sys2Proof.Machine

/-- Settles O3: the encoder is the decoder's inverse both ways, and every word that does not decode is of one of the two
kinds of R61. -/
theorem decodeIsExact : Obligations.DecodeIsExact :=
  ⟨fun _ i => ⟨eq_encode_of_decode, fun h => h ▸ decodeCommand_encode i⟩, fun _ => decodeCommand_illegal_iff⟩

/-- Settles O45: a poll of an idle instance is the read of its `STATUS`; a poll of a busy one is a free instance step,
which under the invariant is the step of a busy instance and does not stop. -/
theorem waitPollsStatus : Obligations.WaitPollsStatus := by
  intro s j u rest hs hpend hu
  rw [step_wait hpend]
  constructor
  · intro hb
    rw [hostWait_idle rest hu hb, readOffset_status]
    rfl
  · intro hb
    rw [hostWait_busy rest hu hb]
    obtain ⟨i, v, c, hv, hvb, own, free⟩ := anyInstanceStep_run hs hu hb
    exact ⟨_, free, rfl, rfl, i, v, hv, hvb, _, own, rfl, rfl⟩

/-- Settles O1: the four words are those of the encoder; the others fall in the class R61 gives them. -/
theorem tableWordsDecode : Obligations.TableWordsDecode :=
  ⟨decodeCommand_encode .nop, decodeCommand_encode .setup, decodeCommand_encode .step, decodeCommand_encode .apply,
    decodeCommand_eq_reservedOp_iff.2 (by decide), decodeCommand_eq_reservedOp_iff.2 (by decide),
    decodeCommand_eq_reservedBits_iff.2 (by decide), decodeCommand_eq_reservedBits_iff.2 (by decide)⟩

/-- Settles O2, command by command (`decodeCommand_encode`). -/
theorem decodeOfEncode : Obligations.DecodeOfEncode := decodeCommand_encode

/-- Settles O6: such a word does not decode, and a ready instance takes the fault. -/
theorem illegalWordRaisesIllegalCmd : Obligations.IllegalWordRaisesIllegalCmd := by
  intro s j d rest u hpend hu hb hf hill
  obtain ⟨e, he⟩ := decodeCommand_illegal_iff.2 hill
  let s₁ := (s.setPending rest).select j
  calc
    step s = hostRegWrite j 0 4 d (s.setPending rest) := step_regWrite hpend
    _ = writeCommand d s₁ := hostRegWrite_cmd d hu
    _ = takeFault .illegalCmd u s₁ := writeCommand_illegal hu ⟨hb, hf⟩ he
    _ = .next (s₁.setVrf j { u with fault := true, fcode := .illegalCmd }) := by
      rw [takeFault, raiseFault_of_clear u _ hf]
      rfl

end Sys2Proof.Machine
end

section
/-! SUPPORT. Laws the proofs about the datapath share: the ranges of the products and of their sum for prepared
coefficients in range (R77 to R79), hence the exact accumulator, shifter and sample step (R80, R81, R84), the narrowing
as a balanced remainder (R82), and Block over a concatenation and over zeros (R85). -/

namespace Sys2Proof.Machine

variable {p : Prepared}

/-! ### The accumulator and the shifter -/

/-- R77: each product lies between the products of its factors' ends, and so in the range the rule's table gives. -/
theorem products_between (hp : preparedInRange p) (x z1 z2 : Sample) :
    (-536854528 ≤ p.kh.toInt * x.toInt ∧ p.kh.toInt * x.toInt ≤ 536870912) ∧
      (-1073741824 ≤ p.nb1.toInt * z1.toInt ∧ p.nb1.toInt * z1.toInt ≤ 1073709056) ∧
      (-536870912 ≤ p.nb2.toInt * z2.toInt ∧ p.nb2.toInt * z2.toInt ≤ 536870912) := by
  obtain ⟨⟨khLow, khHigh⟩, ⟨nb1Low, nb1High⟩, nb2Low, nb2High⟩ := hp
  have gain := mul_between khLow khHigh (sample_range x).1 (sample_range x).2
  have first := mul_between nb1Low nb1High (sample_range z1).1 (sample_range z1).2
  have second := mul_between nb2Low nb2High (sample_range z2).1 (sample_range z2).2
  omega

/-- R79: the sum of the three ranges is the range of the sum. -/
theorem exactSum_between (hp : preparedInRange p) (z : Delay) (x : Sample) :
    -2147467264 ≤ exactSum p z x ∧ exactSum p z x ≤ 2147450880 := by
  have := products_between hp x z.z1 z.z2
  unfold exactSum
  omega

/-- R79: that range lies inside the signed 32-bit one, so `ACC` holds the sum itself. -/
theorem toInt_accumulate (hp : preparedInRange p) (z : Delay) (x : Sample) :
    (accumulate p z x).toInt = exactSum p z x := by
  obtain ⟨low, high⟩ := exactSum_between hp z x
  exact toInt_u32 (by omega) (by omega)

/-- R80: the shifter gives the floor of the exact sum divided by 16384. -/
theorem shiftAcc_accumulate (hp : preparedInRange p) (z : Delay) (x : Sample) :
    shiftAcc (accumulate p z x) = exactSum p z x / 16384 := by
  rw [shiftAcc, asr_filterShift, toInt_accumulate hp]

/-- R84: the output is the low 16 bits of that floor. -/
theorem stepOutput_eq (hp : preparedInRange p) (z : Delay) (x : Sample) :
    stepOutput p z x = BitVec.ofInt 16 (exactSum p z x / 16384) := by
  rw [stepOutput, shiftAcc_accumulate hp, narrow, s16]

/-! ### The narrowing -/

/-- R82: the narrowing is the remainder modulo 65536 that lies around 0. -/
theorem toInt_narrow (v : Int) : (narrow v).toInt = v.bmod 65536 := BitVec.toInt_ofInt v

/-! ### Block -/

/-- R85: a block of a concatenation is the block of the first part, then that of the second from the delay line the
first leaves. -/
theorem filterBlock_append (p : Prepared) (z : Delay) (xs ys : List Sample) :
    filterBlock p z (xs ++ ys) =
      ((filterBlock p z xs).1 ++ (filterBlock p (filterBlock p z xs).2 ys).1,
        (filterBlock p (filterBlock p z xs).2 ys).2) := by
  induction xs generalizing z with
  | nil => rfl
  | cons x xs ih => simp only [List.cons_append, filterBlock_cons, ih]

/-- R89 for Block: what the first part leaves is what the second begins with. -/
theorem filterBlock_append_of_eq {z z' z'' : Delay} {xs xs' ys ys' : List Sample}
    (first : filterBlock p z xs = (ys, z')) (second : filterBlock p z' xs' = (ys', z'')) :
    filterBlock p z (xs ++ xs') = (ys ++ ys', z'') := by
  rw [filterBlock_append, first, second]

/-- R84: the products of zeros are zero, whatever the coefficients. -/
theorem exactSum_zero (p : Prepared) : exactSum p ⟨0#16, 0#16⟩ 0#16 = 0 := by
  simp [exactSum]

theorem stepOutput_zero (p : Prepared) : stepOutput p ⟨0#16, 0#16⟩ 0#16 = 0#16 := by
  rw [stepOutput, accumulate, exactSum_zero]
  rfl

end Sys2Proof.Machine
end

section
/-! CERTIFICATES. The statements about the datapath (40_datapath.md), settled. -/

namespace Sys2Proof.Machine

/-- Settles O15: the values are those of `setup_kh`, `setup_nb1` and `setup_nb2`, the ranges those of
`setup_inRange`. -/
theorem setupValuesExact : Obligations.SetupValuesExact := fun k b1 b2 =>
  have ⟨gain, first, second⟩ := setup_inRange k b1 b2
  ⟨⟨setup_kh k b1 b2, gain⟩, ⟨setup_nb1 k b1 b2, first⟩, setup_nb2 k b1 b2, second⟩

/-- Settles O23: every partial sum is a sum of some of the three ranges of R77, and the inputs R79 names reach the two
ends. -/
theorem accumulatorNeverOverflows : Obligations.AccumulatorNeverOverflows := by
  refine ⟨fun k b1 b2 x z1 z2 => ?_, by decide, by decide⟩
  have inRange := setup_inRange k b1 b2
  refine ⟨?_, toInt_accumulate inRange ⟨z1, z2⟩ x⟩
  have ranges := products_between inRange x z1 z2
  simp only [List.forall_mem_cons, List.not_mem_nil, false_implies, implies_true, and_true]
  omega

/-- Settles O24: the shifted sum is the floor of a sum in the range of R79. -/
theorem shiftedSumIsEighteenBits : Obligations.ShiftedSumIsEighteenBits := by
  intro k b1 b2 x z1 z2
  have inRange := setup_inRange k b1 b2
  have := exactSum_between inRange ⟨z1, z2⟩ x
  rw [shiftAcc_accumulate inRange]
  omega

/-- Settles O25: a balanced remainder differs from its integer by a multiple of the modulus. -/
theorem narrowingWraps : Obligations.NarrowingWraps := by
  refine fun v => ⟨fun ⟨low, high⟩ => toInt_s16 low high, ?_, sample_range (narrow v)⟩
  obtain ⟨m, hm⟩ : (65536 : Int) ∣ v.bmod 65536 - v := Int.dvd_bmod_sub_self
  exact ⟨m, by rw [toInt_narrow, ← hm, add_sub_cancel]⟩

/-- Settles O26: the accumulator does not wrap, so the output is the floor of the exact sum (`stepOutput_eq`). -/
theorem sampleStepIsExact : Obligations.SampleStepIsExact :=
  fun _ z x inRange => ⟨stepOutput_eq inRange z x, rfl⟩

/-- Settles O27: by induction on the length, each sample giving 0 and leaving the delay line at 0. -/
theorem zeroInZeroOut : Obligations.ZeroInZeroOut := by
  intro p n
  induction n with
  | zero => rfl
  | succ n ih => simp only [List.replicate_succ, filterBlock_cons, stepOutput_zero, shiftDelay, ih]

/-- Settles O28: Apply is Block after a setup that is the same for both parts and for the whole. -/
theorem stateContinuity : Obligations.StateContinuity :=
  ⟨fun _ _ _ _ _ _ _ _ => filterBlock_append_of_eq, fun _ _ _ _ _ _ _ _ _ _ => filterBlock_append_of_eq⟩

/-- Settles O29: Block of one sample is one sample step, of the coefficients the setup unit gives. -/
theorem oneSampleBlock : Obligations.OneSampleBlock := by
  refine fun k b1 b2 z1 z2 x => ⟨stepOutput (setupCoefficients k b1 b2) ⟨z1, z2⟩ x, rfl, ?_⟩
  rw [stepOutput_eq (setup_inRange k b1 b2), exactSum, setup_kh, setup_nb1, setup_nb2]

end Sys2Proof.Machine
end

section
/-! SUPPORT. Laws the proofs about the commands share: the setup, the output and the register map as the statements
write them (R96, R97, R100, R101), a host write on a faulted, a busy and a ready instance (R97, R119), each command on a
ready instance (R99 to R103), and the checks of `APPLY` in their order (R102). -/

namespace Sys2Proof.Machine

variable {s t : State} {u v : Vrf} {j : Nat}

/-! ### The datapath and the registers as the statements write them -/

/-- R74 to R76: the setup of the model is that of the statements. -/
theorem prepare_eq_prepared (u : Vrf) : prepare u = Spec.prepared u := by
  simp only [prepare, setupCoefficients, preparedGain, preparedFirst, preparedSecond, asr_preshift]
  rfl

theorem startApply_eq_started (u : Vrf) : startApply u = Spec.started u := by
  rw [startApply, prepare_eq_prepared]
  rfl

/-- R78, R80, R82: the output of the model is that of the statements. -/
theorem stepOutput_eq_output (p : Prepared) (z : Delay) (x : Sample) :
    stepOutput p z x = Spec.output p.kh p.nb1 p.nb2 z.z1 z.z2 x := by
  rw [stepOutput, shiftAcc, asr_filterShift]
  rfl

/-- R63: a 16-bit register reads as its number. -/
theorem readBack16_eq_ofNat (v : Sample) : readBack16 v = BitVec.ofNat 32 v.toNat :=
  BitVec.eq_of_toNat_eq (by simp [readBack16])

/-- R30, R96: a read at an offset is the read of the register there; at a reserved offset it gives 0. -/
theorem readOffset_cases (u : Vrf) (off : Nat) :
    (∃ r, off = regOffset r ∧ readOffset u off = readReg u r) ∨
      ((∀ r, off ≠ regOffset r) ∧ readOffset u off = 0#32) := by
  unfold readOffset
  split
  · rename_i r hr
    exact .inl ⟨r, regAt_eq_some_iff.1 hr, rfl⟩
  · rename_i hr
    exact .inr ⟨fun r e => by simp [regAt_eq_some_iff.2 e] at hr, rfl⟩

/-- R96: the register map of the model, read, is that of the statements. -/
theorem readOffset_eq_readValue (u : Vrf) (off : Nat) : readOffset u off = Spec.readValue u off := by
  obtain ⟨r, rfl, h⟩ | ⟨reserved, h⟩ := readOffset_cases u off
  · cases r
    case status => exact readOffset_status u
    case k | b1 | b2 | z1 | z2 | xy => exact h.trans (readBack16_eq_ofNat _)
    all_goals exact h
  · have : off ≠ 0x04 ∧ off ≠ 0x08 ∧ off ≠ 0x0C ∧ off ≠ 0x10 ∧ off ≠ 0x14 ∧ off ≠ 0x18 ∧ off ≠ 0x1C ∧ off ≠ 0x20 ∧
        off ≠ 0x24 ∧ off ≠ 0x28 ∧ off ≠ 0x2C ∧ off ≠ 0x30 ∧ off ≠ 0x34 ∧ off ≠ 0x38 :=
      ⟨reserved .status, reserved .k, reserved .b1, reserved .b2, reserved .z1, reserved .z2, reserved .xy,
        reserved .fbase, reserved .fcount, reserved .fstride, reserved .kh, reserved .nb1, reserved .nb2,
        reserved .idx⟩
    simp only [h, Spec.readValue, this, if_false]

/-- R97: the register map of the model, written, is that of the statements. -/
theorem writeOffset_eq_written (u : Vrf) (off : Nat) (d : Word) : writeOffset u off d = Spec.written u off d := by
  obtain ⟨r, rfl, h⟩ | ⟨reserved, h⟩ := writeOffset_cases u off d
  · cases r <;> exact h
  · have : off ≠ 0x08 ∧ off ≠ 0x0C ∧ off ≠ 0x10 ∧ off ≠ 0x14 ∧ off ≠ 0x18 ∧ off ≠ 0x1C ∧ off ≠ 0x20 ∧ off ≠ 0x24 ∧
        off ≠ 0x28 :=
      ⟨reserved .k, reserved .b1, reserved .b2, reserved .z1, reserved .z2, reserved .xy, reserved .fbase,
        reserved .fcount, reserved .fstride⟩
    simp only [h, Spec.written, this, if_false]

/-! ### Host writes -/

/-- R118: a fault taken by an unfaulted instance sets `FAULT` and its code. -/
theorem takeFault_of_clear (c : FCode) (hf : u.fault = false) :
    takeFault c u s = .next (s.setVrf s.sel { u with fault := true, fcode := c }) := by
  rw [takeFault, raiseFault_of_clear u c hf]

/-- R97, R119: every host write in the window passes the gate, whatever its offset and word. -/
theorem writeSelected_gated (off : Nat) (d : Word) (s : State) : ∃ act, writeSelected off d s = gateWrite act s := by
  unfold writeSelected writeCommand
  split
  · split
    · rename_i i _
      cases i <;> exact ⟨_, rfl⟩
    · exact ⟨_, rfl⟩
  · exact ⟨_, rfl⟩

/-- R97: an aligned 32-bit write in an instance's window is a write to the selected instance. -/
theorem step_regWrite_run {off : Nat} {d : Word} {rest : List HostOp} (hpend : s.pending = .regWrite j off 4 d :: rest)
    (hu : s.vrfs[j]? = some u) (h4 : off % 4 = 0) (hl : off < 0x100) :
    step s = writeSelected off d ((s.setPending rest).select j) := by
  rw [step_regWrite hpend, hostRegWrite, accessRefusal_none (s := s.setPending rest) hu h4 hl]

/-- R97: an aligned 32-bit write above `CMD` to a ready instance stores its field. -/
theorem step_regWrite_ready {off : Nat} {d : Word} {rest : List HostOp}
    (hpend : s.pending = .regWrite j off 4 d :: rest) (hu : s.vrfs[j]? = some u) (hr : u.ready) (h4 : off % 4 = 0)
    (h0 : off ≠ 0) (hl : off < 0x100) :
    step s = .next (((s.setPending rest).select j).setVrf j (writeOffset u off d)) :=
  (step_regWrite hpend).trans (hostRegWrite_ready (s := s.setPending rest) d hu hr h4 h0 hl)

/-- R96: an aligned 32-bit read in an instance's window gives the host the register. -/
theorem step_regRead_run {off : Nat} {rest : List HostOp} (hpend : s.pending = .regRead j off 4 :: rest)
    (hu : s.vrfs[j]? = some u) (h4 : off % 4 = 0) (hl : off < 0x100) :
    step s = .next (((s.setPending rest).select j).observe (.reg j off (readOffset u off))) :=
  (step_regRead hpend).trans (hostRegRead_run (s := s.setPending rest) hu h4 hl)

/-- R97, R98: a command's word written to `CMD` runs the command. -/
theorem step_command {d : Word} {rest : List HostOp} {i : Instr} (hpend : s.pending = .regWrite j 0 4 d :: rest)
    (hu : s.vrfs[j]? = some u) (hd : decodeCommand d = .ok i) :
    step s = exec i ((s.setPending rest).select j) := by
  rw [step_regWrite hpend, hostRegWrite_cmd (s := s.setPending rest) d hu, writeCommand, hd]

/-! ### The commands on a ready instance -/

theorem exec_nop_ready (hu : s.vrfs[s.sel]? = some u) (hr : u.ready) : exec .nop s = .next s :=
  gateWrite_ready _ hu hr.1 hr.2

theorem exec_setup_ready (hu : s.vrfs[s.sel]? = some u) (hr : u.ready) :
    exec .setup s = .next (s.setVrf s.sel (prepare u)) :=
  gateWrite_ready _ hu hr.1 hr.2

/-- R101: with `PREP` = 1 `STEP` filters the latch. -/
theorem exec_step_prepared (hu : s.vrfs[s.sel]? = some u) (hr : u.ready) (hp : u.prep = true) :
    exec .step s = .next (s.setVrf s.sel (stepLatch u)) :=
  (gateWrite_ready _ hu hr.1 hr.2).trans (if_pos hp)

/-- R101, R138: with `PREP` = 0 `STEP` faults. -/
theorem exec_step_unprepared (hu : s.vrfs[s.sel]? = some u) (hr : u.ready) (hp : u.prep = false) :
    exec .step s = takeFault .notPrepared u s :=
  (gateWrite_ready _ hu hr.1 hr.2).trans (if_neg (by simp [hp]))

/-- R102: an `APPLY` whose frame fails a check takes that check's fault. -/
theorem exec_apply_rejected {c : FCode} (hu : s.vrfs[s.sel]? = some u) (hr : u.ready)
    (hc : applyCheck s.plat.memWords (hostFrame u) = some c) :
    exec .apply s = .next (s.setVrf s.sel { u with fault := true, fcode := c }) := by
  refine (gateWrite_ready _ hu hr.1 hr.2).trans ?_
  simp only [hc]
  exact takeFault_of_clear c hr.2

/-- R102, R103: an `APPLY` whose frame is accepted and free starts. -/
theorem exec_apply_starts (hu : s.vrfs[s.sel]? = some u) (hr : u.ready) (hok : Spec.frameOk s.plat.memWords u)
    (hfree : Spec.frameFree s s.sel u) : exec .apply s = .next (s.setVrf s.sel (startApply u)) := by
  have free : overlapsRunning s s.sel (hostFrame u) = false := (overlapsRunning_hostFrame_iff s s.sel u).2 hfree
  rw [exec_apply_accepted hu hr ((applyCheck_hostFrame_iff _ u).2 hok), free]
  rfl

/-- R102: the first check. -/
theorem applyCheck_nullFrame {memWords : Nat} {f : Frame} (h : 1 ≤ f.count ∧ f.base = 0) :
    applyCheck memWords f = some .nullFrame := if_pos h

/-- R102: the second check, after the first. -/
theorem applyCheck_badStride {memWords : Nat} {f : Frame} (hb : f.base ≠ 0) (h : 2 ≤ f.count ∧ f.stride = 0) :
    applyCheck memWords f = some .badStride :=
  (if_neg fun h => hb h.2).trans (if_pos h)

/-- R102: the third check, after the other two. -/
theorem applyCheck_outOfRange {memWords : Nat} {f : Frame} (hb : f.base ≠ 0) (hs : ¬ (2 ≤ f.count ∧ f.stride = 0))
    (h : 1 ≤ f.count ∧ memWords ≤ f.base + (f.count - 1) * f.stride) :
    applyCheck memWords f = some .outOfRange :=
  (if_neg fun h => hb h.2).trans ((if_neg hs).trans (if_pos h))

/-- A replaced element of a list stands where it was put. -/
theorem getElem?_set_of_some (hu : s.vrfs[j]? = some u) (v : Vrf) : (s.vrfs.set j v)[j]? = some v :=
  List.getElem?_set_self (List.getElem?_eq_some_iff.1 hu).1

end Sys2Proof.Machine
end

section
/-! SUPPORT. The runs of the machine the statements speak of: an `APPLY` from its start to its commit (R107), a row of
`STEP`s over the latch (R110), and a silent host's machine until no `APPLY` runs (R105). -/

namespace Sys2Proof.Machine

variable {s t : State} {u v : Vrf} {j n : Nat}

/-- A run is its first step and the run from there. -/
theorem runSteps_succ (h : step s = .next t) : runSteps (n + 1) s = runSteps n t := by
  simp only [runSteps, h]

/-- R105: an entry for an instance's own step at the head of the list is what the step does. -/
theorem step_instanceStep {rest : List HostOp} (h : s.pending = .instanceStep j :: rest) :
    step s = instanceStep j (s.setPending rest) := by
  simp only [step, nextStep, h, perform]

/-- The later replacement of an instance is the one that stands. -/
theorem setVrf_setVrf : (s.setVrf j u).setVrf j v = s.setVrf j v := by
  simp only [State.setVrf, List.set_set]

/-! ### An `APPLY` from any of its samples to its commit -/

/-- R104: the addresses a running `APPLY` takes in its next `n` sample steps. -/
def nextAddrs (u : Vrf) (n : Nat) : List Nat := (List.range' u.idx.toNat n).map (frameAddr (latchedFrame u))

/-- R35: below `LCOUNT`, `IDX` advances without a wrap. -/
theorem toNat_stepWorking_idx (x : Sample) (hi : u.idx.toNat < u.lcount.toNat) :
    (stepWorking u x).idx.toNat = u.idx.toNat + 1 := by
  rw [stepWorking_idx, BitVec.toNat_add]
  exact Nat.mod_eq_of_lt (Nat.lt_of_le_of_lt hi u.lcount.isLt)

/-- R104: a sample step takes the first of the addresses and leaves the others. -/
theorem nextAddrs_succ (x : Sample) (hi : u.idx.toNat < u.lcount.toNat) (n : Nat) :
    nextAddrs u (n + 1) = nextSampleAddr u :: nextAddrs (stepWorking u x) n := by
  rw [nextAddrs, nextAddrs, toNat_stepWorking_idx x hi]
  rfl

/-- R103: right after the start the addresses are those of the host's frame. -/
theorem nextAddrs_startApply (u : Vrf) :
    nextAddrs (startApply u) u.fcount.toNat =
      (List.range u.fcount.toNat).map fun i => u.fbase.toNat + i * u.fstride.toNat := by
  rw [List.range_eq_range']
  rfl

/-- R102, R46: the addresses of a frame that passed the checks exist and are pairwise distinct. -/
theorem nextAddrs_of_accepted {memWords : Nat} (hn : u.idx.toNat + n = u.lcount.toNat)
    (hc : applyCheck memWords (latchedFrame u) = none) :
    (∀ a ∈ nextAddrs u n, a < memWords) ∧ (nextAddrs u n).Nodup := by
  have below : ∀ i ∈ List.range' u.idx.toNat n, i < (latchedFrame u).count := fun i hi =>
    Nat.lt_of_lt_of_eq (List.mem_range'_1.1 hi).2 hn
  constructor
  · intro a ha
    obtain ⟨i, hi, rfl⟩ := List.mem_map.1 ha
    exact frameAddr_lt hc (below i hi)
  · exact List.Nodup.map_on (fun i hi k hk => frameAddr_inj hc (below i hi) (below k hk)) List.nodup_range'

/-- Samples at other addresses read the same after a write. -/
theorem map_memGet_memSet_other (m : Memory) {a : Nat} (w : Sample) {addrs : List Nat} (ha : a ∉ addrs) :
    addrs.map (memGet (memSet m a w)) = addrs.map (memGet m) :=
  List.map_congr_left fun _ hb => memGet_memSet_other m w fun e => ha (e ▸ hb)

/-- R106: a running instance after its commit, its sample steps having left the delay line `z` and `ACC` at `c`. -/
def finishApply (u : Vrf) (c : Word) (z : Delay) : Vrf :=
  commitApply { u with acc := c, w1 := z.z1, w2 := z.z2, idx := u.lcount }

/-- R106: after the last sample step the working delay line stands and `IDX` is at `LCOUNT`. -/
theorem finishApply_of_last (hn : u.idx = u.lcount) : finishApply u u.acc (workingDelay u) = commitApply u := by
  cases u
  cases hn
  rfl

/-- R107: what `n` sample steps and the commit of instance `j`, running as `u`, make of the instances `vs` and of sample
memory `m`: Block over the samples gives what they now hold and the delay line `z`, and no other sample and no other
element of `vs` changed. -/
structure ApplyEnds (vs : List Vrf) (m : Memory) (j : Nat) (u : Vrf) (n : Nat) (t : State) (z : Delay) : Prop where
  pending : t.pending = []
  vrfs : ∃ c, t.vrfs = vs.set j (finishApply u c z)
  block : filterBlock (preparedOf u) (workingDelay u) ((nextAddrs u n).map (memGet m)) =
    ((nextAddrs u n).map (memGet t.mem), z)
  others : ∀ a ∉ nextAddrs u n, memGet t.mem a = memGet m a

/-- R104, R107: a sample step before an `APPLY` that then ends is one sample more of Block. -/
theorem ApplyEnds.cons {vs : List Vrf} {m : Memory} {z : Delay} (hm : m.wf) (hi : u.idx.toNat < u.lcount.toNat)
    (hd : (nextAddrs u (n + 1)).Nodup)
    (h : ApplyEnds (vs.set j (advance u m)) (advanceMem u m) j (advance u m) n t z) :
    ApplyEnds vs m j u (n + 1) t z := by
  obtain ⟨hpend, ⟨c, hvrfs⟩, hblock, hothers⟩ := h
  have sampled : advance u m = stepWorking u (memGet m (nextSampleAddr u)) := if_pos hi
  rw [advanceMem_sample hi, sampled] at hblock hothers
  have addrs := nextAddrs_succ (memGet m (nextSampleAddr u)) hi n
  obtain ⟨notLater, -⟩ := List.nodup_cons.1 (addrs ▸ hd)
  have output := (hothers _ notLater).trans (memGet_memSet_same hm _ _)
  refine ⟨hpend, ⟨c, ?_⟩, ?_, fun a ha => ?_⟩
  · rw [hvrfs, List.set_set, sampled]
    rfl
  · rw [map_memGet_memSet_other _ _ notLater] at hblock
    rw [addrs, List.map_cons, List.map_cons, filterBlock_cons, output]
    exact congrArg (fun r => (_ :: r.1, r.2)) hblock
  · rw [addrs, List.mem_cons, not_or] at ha
    exact (hothers a ha.2).trans (memGet_memSet_other _ _ ha.1)

/-- R105, R107: with its samples existing and distinct, a running `APPLY` with `n` of them left ends after `n` sample
steps and the commit. -/
theorem runSteps_apply (hm : s.mem.wf) (hu : s.vrfs[j]? = some u) (hb : u.busy = true)
    (hn : u.idx.toNat + n = u.lcount.toNat) (hex : ∀ a ∈ nextAddrs u n, a < s.plat.memWords)
    (hd : (nextAddrs u n).Nodup) (hpend : s.pending = List.replicate (n + 1) (.instanceStep j)) :
    ∃ t z, runSteps (n + 1) s = .next t ∧ ApplyEnds s.vrfs s.mem j u n t z := by
  induction n generalizing s u with
  | zero =>
    have last : step s = .next ((s.setPending []).setVrf j (commitApply u)) := by
      rw [step_instanceStep hpend]
      exact instanceStep_commit (s := s.setPending []) hu hb (Nat.le_of_eq hn.symm)
    exact ⟨_, workingDelay u, runSteps_succ last, rfl,
      ⟨u.acc, by rw [finishApply_of_last (BitVec.eq_of_toNat_eq hn)]; rfl⟩, rfl, fun _ _ => rfl⟩
  | succ n ih =>
    have hi : u.idx.toNat < u.lcount.toNat := by omega
    let s₁ := (s.setPending (List.replicate (n + 1) (.instanceStep j))).advanceAt j u
    have sampled : advance u s.mem = stepWorking u (memGet s.mem (nextSampleAddr u)) := if_pos hi
    have addrs : nextAddrs u (n + 1) = nextSampleAddr u :: nextAddrs (advance u s.mem) n :=
      sampled ▸ nextAddrs_succ _ hi n
    have first : step s = .next s₁ := by
      rw [step_instanceStep hpend]
      exact instanceStep_advanceAt (s := s.setPending _) hu hb fun _ => hex _ (by simp [addrs])
    have wf₁ : s₁.mem.wf := by
      rw [State.advanceAt_mem, advanceMem_sample hi]
      exact memSet_wf hm _ _
    obtain ⟨t, z, hrun, hends⟩ := ih (s := s₁) (u := advance u s.mem) wf₁ (getElem?_set_of_some hu _)
      (sampled ▸ hb) (by rw [sampled, toNat_stepWorking_idx _ hi, stepWorking_lcount]; omega)
      (fun a ha => hex a (by simp [addrs, ha])) (List.nodup_cons.1 (addrs ▸ hd)).2 rfl
    exact ⟨t, z, (runSteps_succ first).trans hrun, hends.cons hm hi hd⟩

/-! ### A row of `STEP`s -/

/-- R70, R110: an input, a `STEP` and a read of the output, as the host's accesses to instance `j`. -/
def filt1Ops (j : Nat) (x : Sample) : List HostOp :=
  [.regWrite j 0x1C 4 (BitVec.ofNat 32 x.toNat), .regWrite j 0 4 0x00000002#32, .regRead j 0x1C 4]

/-- R63: a sample written to a 16-bit register arrives whole. -/
theorem assemble16_ofNat (x : Sample) : assemble16 (BitVec.ofNat 32 x.toNat) = x := by
  apply BitVec.eq_of_toNat_eq
  simpa [assemble16] using x.isLt

/-- R70, R101: the three accesses filter the sample, show the host the output and touch no sample memory. -/
theorem runSteps_filt1 {x : Sample} {rest : List HostOp} (hpend : s.pending = filt1Ops j x ++ rest)
    (hu : s.vrfs[j]? = some u) (hr : u.ready) (hp : u.prep = true) :
    ∃ t, (∀ n, runSteps (n + 3) s = runSteps n t) ∧ t.pending = rest ∧
      t.vrfs[j]? = some (stepLatch { u with xy := x }) ∧ t.mem = s.mem ∧
      t.seen = .reg j 0x1C (BitVec.ofNat 32 (stepOutput (preparedOf u) (committedDelay u) x).toNat) :: s.seen := by
  have stored : writeOffset u 0x1C (BitVec.ofNat 32 x.toNat) = { u with xy := x } :=
    congrArg (fun y => { u with xy := y }) (assemble16_ofNat x)
  let s₁ := ((s.setPending (.regWrite j 0 4 0x00000002#32 :: .regRead j 0x1C 4 :: rest)).select j).setVrf j
    { u with xy := x }
  let s₂ := ((s₁.setPending (.regRead j 0x1C 4 :: rest)).select j).setVrf j (stepLatch { u with xy := x })
  let s₃ := ((s₂.setPending rest).select j).observe
    (.reg j 0x1C (BitVec.ofNat 32 (stepOutput (preparedOf u) (committedDelay u) x).toNat))
  have hu₁ : s₁.vrfs[j]? = some { u with xy := x } := getElem?_set_of_some hu _
  have hu₂ : s₂.vrfs[j]? = some (stepLatch { u with xy := x }) := getElem?_set_of_some hu₁ _
  have write : step s = .next s₁ := by
    rw [step_regWrite_ready hpend hu hr (by decide) (by decide) (by decide), stored]
    rfl
  have filter : step s₁ = .next s₂ := by
    rw [step_command rfl hu₁ (decodeCommand_encode .step)]
    exact exec_step_prepared (s := (s₁.setPending _).select j) hu₁ hr hp
  have read : step s₂ = .next s₃ := by
    rw [step_regRead_run (s := s₂) rfl hu₂ (by decide) (by decide), readOffset_eq_readValue]
    rfl
  refine ⟨s₃, fun n => ?_, rfl, hu₂, rfl, rfl⟩
  rw [runSteps_succ write, runSteps_succ filter, runSteps_succ read]

/-! ### The machine of a silent host -/

/-- R105: the instance steps an instance still takes, its commit included. -/
def ownStepsLeft (u : Vrf) : Nat := if u.busy then u.lcount.toNat - u.idx.toNat + 1 else 0

theorem ownStepsLeft_eq_zero_iff : ownStepsLeft u = 0 ↔ u.busy = false := by
  unfold ownStepsLeft
  split <;> simp_all

theorem stepsLeft_eq_zero_iff : stepsLeft s = 0 ↔ ∀ u ∈ s.vrfs, u.busy = false := by
  have sum : stepsLeft s = (s.vrfs.map ownStepsLeft).sum := rfl
  simp only [sum, List.sum_eq_zero_iff, List.forall_mem_map, ownStepsLeft_eq_zero_iff]

/-- The sum over a list with one element replaced. -/
theorem sum_map_set {vs : List Vrf} (f : Vrf → Nat) (hu : vs[j]? = some u) (v : Vrf) :
    ((vs.set j v).map f).sum + f u = (vs.map f).sum + f v := by
  induction vs generalizing j with
  | nil => cases hu
  | cons w vs ih =>
    cases j with
    | zero =>
      obtain rfl : w = u := Option.some.inj hu
      simp only [List.set_cons_zero, List.map_cons, List.sum_cons]
      omega
    | succ j =>
      have := ih (j := j) hu
      simp only [List.set_cons_succ, List.map_cons, List.sum_cons]
      omega

/-- R105: each own step of a running instance leaves it one step fewer. -/
theorem ownStepsLeft_advance (hb : u.busy = true) (hi : u.idx.toNat ≤ u.lcount.toNat) (m : Memory) :
    ownStepsLeft (advance u m) + 1 = ownStepsLeft u := by
  rw [ownStepsLeft, ownStepsLeft, if_pos hb]
  by_cases h : u.idx.toNat < u.lcount.toNat
  · rw [advance, if_pos h, stepWorking_busy, if_pos hb, toNat_stepWorking_idx _ h, stepWorking_lcount]
    omega
  · rw [advance, if_neg h, commitApply_busy, if_neg Bool.false_ne_true]
    omega

/-- R105: with the host silent and some steps left, a step is one of those and the host stays silent. -/
theorem step_of_stepsLeft (hs : s.Inv) (hpend : s.pending = []) (hl : stepsLeft s ≠ 0) :
    ∃ t, step s = .next t ∧ t.Inv ∧ t.pending = [] ∧ stepsLeft t + 1 = stepsLeft s := by
  obtain ⟨u, hmem, hb⟩ : ∃ u ∈ s.vrfs, u.busy = true := by
    simpa [stepsLeft_eq_zero_iff] using hl
  obtain ⟨j, hu⟩ := List.mem_iff_getElem?.1 hmem
  obtain ⟨i, v, c, hv, hvb, -, hfree⟩ := anyInstanceStep_run hs hu hb
  have hstep : step s = .next (({ s with choices := c } : State).advanceAt i v) := by
    simpa only [step, nextStep, hpend] using hfree
  refine ⟨_, hstep, stepKeepsInvariant s _ hs hstep, hpend, ?_⟩
  have sum := sum_map_set ownStepsLeft hv (advance v s.mem)
  have own := ownStepsLeft_advance hvb (hs.at hv).index s.mem
  change ((s.vrfs.set i (advance v s.mem)).map ownStepsLeft).sum + 1 = (s.vrfs.map ownStepsLeft).sum
  omega

/-- R105, R146: with the host silent the machine takes every step it has left, one after the other. -/
theorem runSteps_of_stepsLeft (hs : s.Inv) (hpend : s.pending = []) (hn : n ≤ stepsLeft s) :
    ∃ t, runSteps n s = .next t ∧ t.pending = [] ∧ stepsLeft t + n = stepsLeft s := by
  induction n generalizing s with
  | zero => exact ⟨s, rfl, hpend, rfl⟩
  | succ n ih =>
    obtain ⟨t, hstep, ht, htpend, hleft⟩ := step_of_stepsLeft hs hpend (by omega)
    obtain ⟨t', hrun, hpend', hleft'⟩ := ih ht htpend (by omega)
    exact ⟨t', (runSteps_succ hstep).trans hrun, hpend', by omega⟩

end Sys2Proof.Machine
end

section
/-! CERTIFICATES. The statements about the commands and the sequencer (41_commands.md), settled. -/

namespace Sys2Proof.Machine

/-- Settles O7: every write passes the gate (`writeSelected_gated`), which lets none through to a faulted instance. -/
theorem faultedInstanceIgnoresWrites : Obligations.FaultedInstanceIgnoresWrites := by
  intro s j off d rest u hpend h4 hl hu hf
  obtain ⟨act, hact⟩ := writeSelected_gated off d ((s.setPending rest).select j)
  rw [step_regWrite_run hpend hu h4 hl, hact]
  exact gateWrite_faulted act hu hf

/-- Settles O8: every write passes the gate (`writeSelected_gated`), which raises `BUSY_WRITE` for a busy instance. -/
theorem busyInstanceDropsWrites : Obligations.BusyInstanceDropsWrites := by
  intro s j off d rest u hpend h4 hl hu hf hb
  obtain ⟨act, hact⟩ := writeSelected_gated off d ((s.setPending rest).select j)
  rw [step_regWrite_run hpend hu h4 hl, hact]
  exact (gateWrite_busy act hu hf hb).trans (takeFault_of_clear .busyWrite hf)

/-- Settles O9: the register map the model writes is that of the statement (`writeOffset_eq_written`). -/
theorem registerWriteStores : Obligations.RegisterWriteStores := by
  intro s j off d rest u hpend h4 h0 hl hu hb hf
  rw [step_regWrite_ready hpend hu ⟨hb, hf⟩ h4 (Nat.ne_of_gt h0) hl, writeOffset_eq_written]
  rfl

/-- Settles O10: the register map the model reads is that of the statement (`readOffset_eq_readValue`). -/
theorem registerReadReturns : Obligations.RegisterReadReturns := by
  intro s j off rest u hpend h4 hl hu
  rw [step_regRead_run hpend hu h4 hl, readOffset_eq_readValue]
  rfl

/-- Settles O17: `STEP` passes the gate and its check, and its output is that of the statement. -/
theorem stepFiltersTheLatch : Obligations.StepFiltersTheLatch := by
  intro s u hu hb hf hp
  have out := stepOutput_eq_output (preparedOf u) (committedDelay u) u.xy
  refine ⟨(stepLatch u).acc, ?_⟩
  rw [exec_step_prepared hu ⟨hb, hf⟩ hp]
  simp only [preparedOf, committedDelay] at out
  rw [← out]
  rfl

/-- Settles O19: the checks are tried in the order of the three clauses, each on the numbers of the host's frame. -/
theorem applyChecksInOrder : Obligations.ApplyChecksInOrder := by
  intro s u hu hb hf
  have zero_iff : ∀ w : Word, w = 0#32 ↔ w.toNat = 0 := fun w => BitVec.toNat_eq
  simp only [Ne, zero_iff]
  refine ⟨fun h => exec_apply_rejected hu ⟨hb, hf⟩ (applyCheck_nullFrame h), fun ⟨hc, hbase, hs⟩ => ?_,
    fun ⟨hc, hbase, hs, hend⟩ => ?_⟩
  · exact exec_apply_rejected hu ⟨hb, hf⟩ (applyCheck_badStride hbase ⟨hc, hs⟩)
  · have strideOk : ¬ (2 ≤ u.fcount.toNat ∧ u.fstride.toNat = 0) := by omega
    exact exec_apply_rejected hu ⟨hb, hf⟩ (applyCheck_outOfRange hbase strideOk ⟨hc, hend⟩)

/-- Settles O20: the checks accept the frame, no running frame meets it, and the start is that of the statement. -/
theorem applyStarts : Obligations.ApplyStarts := by
  intro s u hu hb hf hok hfree
  rw [exec_apply_starts hu ⟨hb, hf⟩ hok hfree, startApply_eq_started]
  rfl

/-- Settles O22: of everything a command can do (`CommandEffect`), each changes only the fields its rule names. -/
theorem commandFrame : Obligations.CommandFrame := by
  intro i s t h
  obtain ⟨u, v, hu, rfl, he⟩ := exec_next h
  refine ⟨rfl, rfl, rfl, rfl, rfl, fun _ => rfl, fun _ hj => List.getElem?_set_ne hj.symm, u, v, hu,
    getElem?_set_of_some hu v, ?_⟩
  cases he with
  | same => simp
  | fault _ c hf hc =>
    rw [raiseFault_of_clear u c hf]
    simp [hf, hc]
  | setup => simp
  | step => simp
  | apply => simp

/-- Settles O32: with `IDX` = `LCOUNT` no sample is left to take. -/
theorem commitWritesBack : Obligations.CommitWritesBack :=
  fun _ _ _ hu hb hi => instanceStep_commit hu hb (Nat.le_of_eq (congrArg BitVec.toNat hi.symm))

/-- Settles O31: the sample step writes back the output of the statement (`stepOutput_eq_output`). -/
theorem sampleStepFiltersOneSample : Obligations.SampleStepFiltersOneSample := by
  intro s j u a y hm hu hb hi ha hlt hy
  subst ha
  have out : y = (stepWorking u (memGet s.mem (nextSampleAddr u))).w1 :=
    hy.trans (stepOutput_eq_output (preparedOf u) (workingDelay u) _).symm
  subst out
  exact ⟨_, _, instanceStep_sample hu hb hi hlt, rfl, memGet_memSet_same hm _ _,
    fun _ hne => memGet_memSet_other s.mem _ hne⟩

/-- Settles O33: an instance step is nothing, a sample step or the commit (`instanceStep_next`). -/
theorem instanceStepFrame : Obligations.InstanceStepFrame := by
  intro s t j u h hu
  obtain rfl | ⟨u', hu', hb, ⟨hi, -, rfl⟩ | ⟨hi, rfl⟩⟩ := instanceStep_next h
  · exact ⟨rfl, rfl, rfl, rfl, rfl, fun _ _ => rfl, ⟨u, hu, by simp +contextual⟩, fun _ _ _ => rfl, fun _ _ => rfl⟩
  · obtain rfl := Option.some.inj (hu.symm.trans hu')
    refine ⟨rfl, rfl, rfl, rfl, rfl, fun _ hne => List.getElem?_set_ne hne.symm,
      ⟨_, getElem?_set_of_some hu _, by simp [hb]⟩, fun _ _ hne => memGet_memSet_other s.mem _ hne, ?_⟩
    rintro (idle | done)
    · simp [hb] at idle
    · omega
  · obtain rfl := Option.some.inj (hu.symm.trans hu')
    exact ⟨rfl, rfl, rfl, rfl, rfl, fun _ hne => List.getElem?_set_ne hne.symm,
      ⟨_, getElem?_set_of_some hu _, by simp [hb, hi]⟩, fun _ _ _ => rfl, fun _ _ => rfl⟩

/-- Settles O34: the command starts the `APPLY`, whose samples exist and are distinct (`nextAddrs_of_accepted`), and its
steps end it as Block says (`runSteps_apply`). -/
theorem applyFiltersTheFrame : Obligations.ApplyFiltersTheFrame := by
  intro s j u hs hu hb hf hok hfree hpend
  set rest := List.replicate (u.fcount.toNat + 1) (HostOp.instanceStep j)
  let s₁ := ((s.setPending rest).select j).setVrf j (startApply u)
  have start : step s = .next s₁ := by
    rw [step_command hpend hu (decodeCommand_encode .apply)]
    exact exec_apply_starts (s := (s.setPending rest).select j) hu ⟨hb, hf⟩ hok hfree
  have count : (startApply u).idx.toNat + u.fcount.toNat = (startApply u).lcount.toNat := Nat.zero_add _
  obtain ⟨exist, distinct⟩ := nextAddrs_of_accepted count ((applyCheck_hostFrame_iff _ u).2 hok)
  obtain ⟨t, z, hrun, hdone, ⟨c, hvrfs⟩, hblock, hothers⟩ :=
    runSteps_apply (s := s₁) hs.memWf (getElem?_set_of_some hu _) rfl count exist distinct rfl
  rw [nextAddrs_startApply] at hblock hothers
  rw [List.map_map, List.map_map] at hblock
  have held : t.vrfs[j]? = some (finishApply (startApply u) c z) := by
    rw [hvrfs]
    exact getElem?_set_of_some (s := s₁) (getElem?_set_of_some hu _) _
  have elsewhere : ∀ i, i ≠ j → t.vrfs[i]? = s.vrfs[i]? := fun i hi => by
    rw [hvrfs, List.getElem?_set_ne hi.symm]
    exact List.getElem?_set_ne hi.symm
  have setup := prepare_eq_prepared u
  refine ⟨t, _, _, z, hblock, (runSteps_succ start).trans hrun, hdone, held, elsewhere, fun i hi => by simp [hi],
    fun a ha => hothers a fun hmem => ?_, rfl, rfl, (congrArg Vrf.kh setup :),
    (congrArg Vrf.nb1 setup :), (congrArg Vrf.nb2 setup :), rfl, rfl, rfl, rfl, rfl, rfl, rfl, rfl, rfl, rfl, rfl, rfl⟩
  obtain ⟨i, hi, rfl⟩ := List.mem_map.1 hmem
  exact ha i (List.mem_range.1 hi) rfl

/-- Settles O35: an empty frame passes every check and meets no other, and with `LCOUNT` = 0 the commit is next. -/
theorem emptyApplyOnlyPrepares : Obligations.EmptyApplyOnlyPrepares := by
  intro s u hu hb hf h0
  have ok : Spec.frameOk s.plat.memWords u := by simp [Spec.frameOk, h0]
  have free : Spec.frameFree s s.sel u := by simp [Spec.frameFree, h0]
  refine ⟨_, exec_apply_starts hu ⟨hb, hf⟩ ok free, ?_⟩
  refine (instanceStep_commit (getElem?_set_of_some hu _) rfl (by simp [h0])).trans ?_
  rw [setVrf_setVrf, startApply_eq_started]
  rfl

/-- Settles O36: a frame of one sample passes the checks whatever its stride, and its two instance steps are the sample
step of O31 and the commit of O32. -/
theorem singleSampleApply : Obligations.SingleSampleApply := by
  intro s u y hm hu hb hf h1 hbase hlt hfree hy
  have one : u.fcount.toNat = 1 := by rw [h1]; rfl
  have ok : Spec.frameOk s.plat.memWords u := by
    have : u.fbase.toNat ≠ 0 := fun h => hbase (BitVec.eq_of_toNat_eq h)
    simp [Spec.frameOk, one, this, hlt]
  have free : Spec.frameFree s s.sel u := by
    intro i v hi hv hvb p hp q hq
    obtain rfl : p = 0 := by omega
    simpa using hfree i v hi hv hvb q hq
  rw [← prepare_eq_prepared] at hy
  let s₁ := s.setVrf s.sel (startApply u)
  have hu₁ : s₁.vrfs[s.sel]? = some (startApply u) := getElem?_set_of_some hu _
  obtain ⟨s₂, c, hsample, hs₂, hval, hothers⟩ := sampleStepFiltersOneSample s₁ s.sel (startApply u) u.fbase.toNat y hm
    hu₁ rfl (by simp [one]) (by simp) hlt hy
  have hu₂ : s₂.vrfs[s.sel]? = some { startApply u with acc := c, w1 := y, w2 := u.z1, idx := 0#32 + 1#32 } := by
    rw [hs₂]
    exact getElem?_set_of_some hu₁ _
  have hcommit := commitWritesBack s₂ s.sel _ hu₂ rfl h1.symm
  exact ⟨s₁, s₂, _, _, exec_apply_starts hu ⟨hb, hf⟩ ok free, hsample, hcommit, getElem?_set_of_some hu₂ _, rfl, rfl,
    rfl, hval, hothers⟩

/-- Settles O37: by induction on the inputs, each of whose three accesses is one sample of Block (`runSteps_filt1`). -/
theorem stepsComputeTheBlock : Obligations.StepsComputeTheBlock := by
  intro xs
  induction xs with
  | nil =>
    intro s j u rest hu hb hf hp hpend
    exact ⟨s, u, [], ⟨u.z1, u.z2⟩, rfl, rfl, hpend, hu, rfl, rfl, rfl, rfl⟩
  | cons x xs ih =>
    intro s j u rest hu hb hf hp hpend
    rw [List.flatMap_cons, List.append_assoc] at hpend
    obtain ⟨s₁, hfirst, hpend₁, hu₁, hmem₁, hseen₁⟩ := runSteps_filt1 hpend hu ⟨hb, hf⟩ hp
    obtain ⟨t, v, ys, z, hblock, hrun, hrest, hv, hz1, hz2, hmem, hseen⟩ := ih s₁ j _ rest hu₁ hb hf hp hpend₁
    refine ⟨t, v, stepOutput (preparedOf u) (committedDelay u) x :: ys, z, ?_, (hfirst _).trans hrun, hrest, hv, hz1,
      hz2, hmem.trans hmem₁, ?_⟩
    · exact congrArg (fun r => (_ :: r.1, r.2)) hblock
    · rw [hseen, hseen₁]
      simp

/-- Settles O38: each step is one of the steps left (`runSteps_of_stepsLeft`), and none is left exactly when no `APPLY`
runs. -/
theorem everyApplyEnds : Obligations.EveryApplyEnds := by
  intro s hs hpend
  constructor
  · obtain ⟨t, hrun, hdone, hleft⟩ := runSteps_of_stepsLeft hs hpend le_rfl
    exact ⟨t, hrun, hdone, stepsLeft_eq_zero_iff.1 (by omega)⟩
  · intro n hn
    obtain ⟨t, hrun, -, hleft⟩ := runSteps_of_stepsLeft hs hpend hn.le
    have some_left : stepsLeft t ≠ 0 := by omega
    exact ⟨t, hrun, by simpa [stepsLeft_eq_zero_iff] using some_left⟩

/-- Settles O4: a 32-bit write at offset 0 is a write to `CMD` (`step_command`). -/
theorem stepRunsDecodedCommand : Obligations.StepRunsDecodedCommand :=
  fun _ _ _ _ _ _ hpend hu hd => step_command hpend hu hd

/-- Settles O13: on a ready instance the gate lets `NOP` through. -/
theorem nopChangesNothing : Obligations.NopChangesNothing := fun _ _ hu hb hf => exec_nop_ready hu ⟨hb, hf⟩

/-- Settles O14: the setup is that of the statement (`prepare_eq_prepared`). -/
theorem setupPrepares : Obligations.SetupPrepares := by
  intro s u hu hb hf
  rw [exec_setup_ready hu ⟨hb, hf⟩, prepare_eq_prepared]
  rfl

/-- Settles O16: the setup reads `K`, `B1` and `B2` only, so a second one sets what it finds. -/
theorem setupTwiceIsOnce : Obligations.SetupTwiceIsOnce := by
  intro s u hu hb hf
  have prepared : (s.setVrf s.sel (prepare u)).vrfs[s.sel]? = some (prepare u) := getElem?_set_of_some hu _
  refine ⟨_, exec_setup_ready hu ⟨hb, hf⟩, ?_⟩
  exact (exec_setup_ready prepared ⟨hb, hf⟩).trans (congrArg _ (setVrf_same prepared))

/-- Settles O18: `STEP` passes the gate and fails its one check. -/
theorem stepWithoutSetupFaults : Obligations.StepWithoutSetupFaults :=
  fun _ _ hu hb hf hp => (exec_step_unprepared hu ⟨hb, hf⟩ hp).trans (takeFault_of_clear .notPrepared hf)

end Sys2Proof.Machine
end

section
/-! SUPPORT. Laws about faulted instances (R97, R121): no step removes an instance, and no host write changes a faulted
one. -/

namespace Sys2Proof.Machine

variable {s t : State} {u v : Vrf} {j : Nat}

/-- R40, R126: an instance is still there after a step. -/
theorem exists_vrf_of_step (h : step s = .next t) (hu : s.vrfs[j]? = some u) : ∃ v, t.vrfs[j]? = some v := by
  obtain ⟨-, hlen, -⟩ := stepChangesOneInstance s t h
  exact ⟨_, List.getElem?_eq_getElem (hlen ▸ (List.getElem?_eq_some_iff.1 hu).1)⟩

/-- R97: a host write leaves a faulted instance as it is; every other effect of a write needs `FAULT` = 0. -/
theorem writeEffect_faulted {off : Nat} {d : Word} (he : WriteEffect s j off d u v) (hf : u.fault = true) : v = u := by
  have unfaulted : u.fault ≠ false := by simp [hf]
  cases he with
  | same => rfl
  | fault _ clear => exact absurd clear unfaulted
  | stored hr => exact absurd hr.2 unfaulted
  | setup hr => exact absurd hr.2 unfaulted
  | step hr => exact absurd hr.2 unfaulted
  | apply hr => exact absurd hr.2 unfaulted

end Sys2Proof.Machine
end

section
/-! CERTIFICATES. The statements about faults and idle instances (60_exceptions.md), settled. -/

namespace Sys2Proof.Machine

/-- Settles O48: an absent or idle instance has no step enabled, and the next sample of a running one exists
(`State.Inv.nextAddr`). -/
theorem instanceStepsNeverStop : Obligations.InstanceStepsNeverStop := by
  intro s j hs
  cases hu : s.vrfs[j]? with
  | none => exact ⟨s, by simp only [instanceStep, hu]⟩
  | some u =>
    cases hb : u.busy with
    | false => exact ⟨s, instanceStep_idle hu hb⟩
    | true => exact ⟨_, instanceStep_advanceAt hu hb (hs.nextAddr hu hb)⟩

/-- Settles O49: of everything a step can make of an instance, a host write leaves a faulted one as it is
(`writeEffect_faulted`), its own sample step keeps all that is named, and its commit all but `Z1`, `Z2`. -/
theorem faultIsSticky : Obligations.FaultIsSticky := by
  intro s t j u hstep hu hf hreset
  obtain ⟨v, hv⟩ := exists_vrf_of_step hstep hu
  refine ⟨v, hv, ?_⟩
  cases step_instance hstep hu hv with
  | same => simp [hf]
  | write off d v _ he =>
    obtain rfl := writeEffect_faulted he hf
    simp [hf]
  | sample x => simp [hf]
  | commit hb hi => simp [hf, hb, hi]
  | reset hn => simp [hn] at hreset

/-- Settles O44: with nothing pending a step is a free instance step, and none is enabled. -/
theorem idleMachineHoldsItsState : Obligations.IdleMachineHoldsItsState := by
  rintro s ⟨hpend, hidle⟩
  simpa only [step, nextStep, hpend] using anyInstanceStep_idle hidle

end Sys2Proof.Machine
end

section
/-! SUPPORT. A reset by the platform as a step (R132): one instance, or all of them. -/

namespace Sys2Proof.Machine

variable {s : State} {u : Vrf} {j : Nat} {rest : List HostOp}

/-- R132: the reset of an instance that exists puts it at its reset values, whatever it was doing. -/
theorem step_resetOne (h : s.pending = .resetOne j :: rest) (hu : s.vrfs[j]? = some u) :
    step s = .next ((s.setPending rest).setVrf j Vrf.reset) := by
  simp only [step, nextStep, h, perform, resetInstance, State.setPending_vrfs, hu]

/-- R132: a platform reset puts as many instances as there are at their reset values. -/
theorem step_resetAll (h : s.pending = .resetAll :: rest) :
    step s = .next { s with pending := rest, vrfs := List.replicate s.vrfs.length Vrf.reset } := by
  simp only [step, nextStep, h, perform, resetPlatform, State.setPending, List.map_const']

end Sys2Proof.Machine
end

section
/-! CERTIFICATES. The statement about reset (70_reset_and_hazards.md), settled. -/

namespace Sys2Proof.Machine

/-- Settles O42: each reset is one replacement by `Vrf.reset` (`step_resetOne`, `step_resetAll`), which holds the values
of R39; the free `ACC` is the one the model resets it to. -/
theorem resetClearsTheInstance : Obligations.ResetClearsTheInstance := by
  intro s j u rest hu
  refine ⟨Vrf.reset.acc, ?_, ?_⟩
  · exact step_resetOne (s := { s with pending := .resetOne j :: rest }) rfl hu
  · exact step_resetAll (s := { s with pending := .resetAll :: rest }) rfl

end Sys2Proof.Machine
end
